-- ==== Sys2Proof/Word.lean ====
section
/-! DEFINITION. The word types of the engine (00_scope.md R9, R10): a byte is 8 bits, a word is 64 bits, a command
word is 32 bits, all unsigned. -/

namespace Sys2Proof

/-- A byte: 8 bits (R10). -/
abbrev Byte := BitVec 8

/-- A word: 64 bits, unsigned; `+` on it is addition modulo 2^64 (R10, R11). -/
abbrev Word := BitVec 64

/-- A command word or a status word: 32 bits (R9). -/
abbrev CmdWord := BitVec 32

end Sys2Proof
end

