-- ==== Sys2Proof/Syntax.lean ====
section
/-! DEFINITION. The instruction set: the three host commands (00_scope.md R4; 30_encoding.md R62), one constructor per
row of spec/opcode_table.json. -/

namespace Sys2Proof

/-- The commands a host issues (R4, R62). The payload of UPDATE is its only operand, a byte sequence of any length
(R60, R63); INIT and FINAL take none. -/
inductive Instr where
  /-- INIT: start a message (R114). -/
  | init
  /-- UPDATE: absorb the payload (R115). -/
  | update (data : List Byte)
  /-- FINAL: end the message and return its digest (R120). -/
  | final
  deriving DecidableEq, Repr

end Sys2Proof
end

