-- ==== Sys2Proof/WellFormed.lean ====
section
/-! DEFINITION. What makes a transaction, and an instruction, well formed. The three checks on a transaction are the
three clauses of 30_encoding.md R64, each negated. -/

namespace Sys2Proof

/-- R64, first clause: `cw[7:0]` is 0x01, 0x02 or 0x03. -/
def opcodeDefined (cw : CmdWord) : Bool :=
  let op := cw.extractLsb' 0 8
  op == 0x01 || op == 0x02 || op == 0x03

/-- R64, second clause: `cw[31:8] = 0`. -/
def reservedZero (cw : CmdWord) : Bool :=
  cw.extractLsb' 8 24 == 0

/-- R64, third clause; R63: the payload of INIT and FINAL is empty. -/
def payloadAllowed (cw : CmdWord) (data : List Byte) : Bool :=
  let op := cw.extractLsb' 0 8
  !((op == 0x01 || op == 0x03) && !data.isEmpty)

/-- A transaction (R60) is legal when none of the clauses of R64 holds. -/
def legalCommand (cw : CmdWord) (data : List Byte) : Bool :=
  opcodeDefined cw && reservedZero cw && payloadAllowed cw data

/-- An instruction is well formed when its operand is one the command takes. INIT and FINAL have no operand to be
wrong, and UPDATE takes every byte sequence, whatever its length (R60, R63), so every instruction is well formed: what
can be ill formed here is a transaction (`legalCommand`). -/
def Instr.wellFormed (i : Instr) : Bool :=
  match i with
  | .init => true
  | .update _ => true
  | .final => true

end Sys2Proof
end

