-- ==== Sys2Proof/Decode.lean ====
section
/-! DEFINITION. The decoder of 30_encoding.md R65, total on every pair of a command word and a payload and refusing by
name, and after it the encoder of R62 and the host's table-word decoder. -/

namespace Sys2Proof

/-- Why a transaction is ILLEGAL (R64), one name for each reason. Every one of them raises the same fault,
ILLEGAL_COMMAND (R142). -/
inductive Illegal where
  /-- `cw[31:8] ≠ 0`. -/
  | reservedBits
  /-- `cw[7:0]` is 0x00 or in 0x04..0xFF. -/
  | undefinedOpcode
  /-- A non-empty payload with INIT. -/
  | payloadOnInit
  /-- A non-empty payload with FINAL. -/
  | payloadOnFinal
  deriving DecidableEq, Repr

/-- The field OP, bits [7:0] of the command word (R61). -/
def opField (cw : CmdWord) : BitVec 8 := cw.extractLsb' 0 8

/-- The field RSVD, bits [31:8] of the command word (R61). -/
def rsvdField (cw : CmdWord) : BitVec 24 := cw.extractLsb' 8 24

/-- `decode(cw, data)` (R65), its tests in the rule's order; what the rule calls ILLEGAL is an error that names the
clause of R64. -/
def decode (cw : CmdWord) (data : List Byte) : Except Illegal Instr :=
  if rsvdField cw ≠ 0 then .error .reservedBits
  else if opField cw = 0x01 then
    if data.isEmpty then .ok .init else .error .payloadOnInit
  else if opField cw = 0x02 then .ok (.update data)
  else if opField cw = 0x03 then
    if data.isEmpty then .ok .final else .error .payloadOnFinal
  else .error .undefinedOpcode

/-- The opcode of an instruction (R62). -/
def opcode (i : Instr) : BitVec 8 :=
  match i with
  | .init => 0x01
  | .update _ => 0x02
  | .final => 0x03

/-- The payload an instruction is sent with (R62, R63). -/
def payload (i : Instr) : List Byte :=
  match i with
  | .init => []
  | .update data => data
  | .final => []

/-- The command word of an instruction: OP in bits [7:0], RSVD zero (R61, R62). -/
def commandWord (i : Instr) : CmdWord := (0 : BitVec 24) ++ opcode i

/-- The transaction of an instruction: its command word and its payload (R60, R62). -/
def encode (i : Instr) : CmdWord × List Byte := (commandWord i, payload i)

/-- The transaction whose bits are `w`, numbered as spec/opcode_table.json numbers them: bits 31..0 are the command
word, and what a longer word holds above bit 31 is the payload, byte after byte (the bits at and above `nbits` are 0,
and the payload has no byte the word does not give). Log entry 6. -/
def tableTransaction (nbits w : Nat) : CmdWord × List Byte :=
  let bits := w % 2 ^ nbits
  (BitVec.ofNat 32 bits,
    (List.range ((nbits - 32) / 8)).map fun k => BitVec.ofNat 8 (bits / 2 ^ (32 + 8 * k)))

/-- The instruction the decoder reads from the transaction whose bits are `w`, or none where it refuses. -/
def decodeTableWord (nbits w : Nat) : Option Instr :=
  match decode (tableTransaction nbits w).1 (tableTransaction nbits w).2 with
  | .ok i => some i
  | .error _ => none

end Sys2Proof
end

