-- ==== Sys2Proof/Machine/Operands.lean ====
section
/-! DEFINITION. How bytes become words and words become bytes (20_memory.md R40 to R45), and how bytes move into and
out of the block buffer (R12, R47). -/

namespace Sys2Proof.Machine

/-- `le64(s, o)`: the eight bytes of `s` from offset `o` as a word, byte `k` in bits [8k+7:8k] (R40, R41). It needs
`o + 8 ≤ |s|`, which every caller gives it. -/
def le64 (s : List Byte) (o : Nat) : Word :=
  s.getD (o + 7) 0 ++ s.getD (o + 6) 0 ++ s.getD (o + 5) 0 ++ s.getD (o + 4) 0 ++
  s.getD (o + 3) 0 ++ s.getD (o + 2) 0 ++ s.getD (o + 1) 0 ++ s.getD o 0

/-- Byte `k` of a word: its bits [8k+7:8k] (R40). -/
def byteOf (w : Word) (k : Nat) : Byte := w.extractLsb' (8 * k) 8

/-- `le64bytes(w)`: the eight bytes of a word, least significant first (R42). -/
def le64bytes (w : Word) : List Byte :=
  [byteOf w 0, byteOf w 1, byteOf w 2, byteOf w 3, byteOf w 4, byteOf w 5, byteOf w 6, byteOf w 7]

/-- The digest a chaining state serialises to: its words one after another, each little-endian (R120, R121). -/
def digestOf (h : Vector Word 8) : List Byte := h.toList.flatMap le64bytes

/-- The message words of a block: `m[i] = le64(block, 8i)` (R90). -/
def messageWords (block : Vector Byte 128) : Vector Word 16 :=
  Vector.ofFn fun i => le64 block.toList (8 * i.val)

/-- `MemRead(BUF, a, n)`: the `n` bytes of the buffer from offset `a` (R12); callers keep `a + n ≤ 128`. -/
def memRead (buf : Vector Byte 128) (a n : Nat) : List Byte := (buf.toList.drop a).take n

/-- `MemWrite(BUF, a, |s|, s)`: the bytes of `s` put into the buffer from offset `a`, one at a time and in order
(R12, R47); callers keep `a + |s| ≤ 128`. -/
def memWrite (buf : Vector Byte 128) (a : Nat) (s : List Byte) : Vector Byte 128 :=
  match s with
  | [] => buf
  | b :: rest => memWrite (buf.setIfInBounds a b) (a + 1) rest

end Sys2Proof.Machine
end

