-- ==== Sys2Proof/Machine/State.lean ====
section
/-! DEFINITION. The state of the engine as plain data (10_state.md R20, R34), its command port, and the state right
after reset (R36). -/

namespace Sys2Proof.Machine

/-- The lifecycle register `phase` (R28). The value 3, which no rule writes, is not representable. -/
inductive Phase where
  /-- 0: no message in progress. -/
  | idle
  /-- 1: a message is in progress. -/
  | absorbing
  /-- 2: a fault was recorded; every command is refused until reset. -/
  | faulted
  deriving DecidableEq, Repr

/-- The faults a command can raise (R141, R145). Raising one is an ordinary step of the machine: fault entry gives a
next state. -/
inductive FaultCode where
  /-- 0x01 ILLEGAL_COMMAND (R142). -/
  | illegalCommand
  /-- 0x02 SEQUENCE (R143). -/
  | sequence
  /-- 0x03 COUNTER_OVERFLOW (R144). -/
  | counterOverflow
  deriving DecidableEq, Repr

/-- What a command reports in the RESULT field of its response (R141). -/
inductive ResultCode where
  /-- 0x00 OK: the command completed. -/
  | ok
  /-- The code of the fault the command raised. -/
  | fault (code : FaultCode)
  /-- 0x04 HALTED: the command met the phase FAULTED (R146). -/
  | halted
  deriving DecidableEq, Repr

/-- The response to a command: a status word, and the digest when the command was a FINAL that completed (R66). -/
structure Response where
  status : BitVec 32
  digest : Option (List Byte)
  deriving DecidableEq, Repr

/-- What the host can do to the engine between commands (R73): issue one command, a transaction of a command word and
a payload (R60), or assert the reset signal (R160). -/
inductive HostEvent where
  | command (cw : CmdWord) (data : List Byte)
  | reset
  deriving DecidableEq, Repr

/-- The context of one message in progress (R14, R21 to R27). The counter is held as its two words (R23). A fill
length above 128, which never occurs (R27), is not representable. -/
structure Context where
  /-- The chaining state `h[0..7]` (R21). -/
  h      : Vector Word 8
  /-- The low word of the byte counter, `t[63:0]` (R23). -/
  t0     : Word
  /-- The high word of the byte counter, `t[127:64]` (R23). -/
  t1     : Word
  /-- The finalization flag word (R24). -/
  f0     : Word
  /-- The second finalization flag word, always 0 in this engine (R25). -/
  f1     : Word
  /-- The block buffer (R26). -/
  buf    : Vector Byte 128
  /-- The fill length of the buffer, 0 to 128 (R27). -/
  buflen : Fin 129
  deriving DecidableEq, Repr

/-- The transient state a command works with (R34); zero between commands (92_eei_decisions.md D16). -/
structure Transient where
  /-- The working vector. -/
  v         : Vector Word 16
  /-- The message words. -/
  m         : Vector Word 16
  /-- The round index of the sequencer. -/
  r         : Fin 12
  /-- The G index of the sequencer. -/
  i         : Fin 8
  /-- The payload bytes UPDATE still has to consume. -/
  remaining : Nat
  deriving DecidableEq, Repr

/-- The machine: the engine's state (R20, R34) and its command port. The constant tables are not state (R32, R39). -/
structure State where
  /-- The context registers (R20). -/
  ctx      : Context
  /-- The transient state (R34). -/
  work     : Transient
  /-- The lifecycle register (R28). -/
  phase    : Phase
  /-- The recorded fault code, 0x00 for none (R29). -/
  fcode    : BitVec 8
  /-- The host's events not yet taken, oldest first (R52, R73). DESIGN CHOICE, log entry 1: the model's own field. -/
  pending  : List HostEvent
  /-- What the engine sent back for the event it performed last: the response of a command (R66), nothing after a
  reset (R160). DESIGN CHOICE, log entry 2: the port's field, not an engine register (R35). -/
  response : Option Response
  deriving DecidableEq, Repr

/-- Why the machine stops with a fault: it never does, so there is no constructor. Every fault the spec gives the
engine has an entry the spec describes (R145) and is a next state. DEDUCED, log entry 8: safe, since nothing is
stopped that the spec lets run. -/
inductive Fault where
  deriving DecidableEq, Repr

/-- Why the machine gives an instruction no meaning. -/
inductive Refusal where
  /-- Raised by an arm of exec whose instruction has no meaning yet; no arm is such, so no step raises it. Safe: it
  stops the run. -/
  | notModelled (mnemonic : String)
  deriving DecidableEq, Repr

/-- Every context register 0: the context after reset (R36), after FINAL (R122) and after fault entry (R145). -/
def Context.zero : Context where
  h := Vector.replicate 8 0
  t0 := 0
  t1 := 0
  f0 := 0
  f1 := 0
  buf := Vector.replicate 128 0
  buflen := 0

/-- The transient state between commands (R34, R36). -/
def Transient.zero : Transient where
  v := Vector.replicate 16 0
  m := Vector.replicate 16 0
  r := 0
  i := 0
  remaining := 0

/-- The machine right after reset (R36, R160). The host has issued nothing and received nothing (log entries 1, 2). -/
def State.reset : State where
  ctx := Context.zero
  work := Transient.zero
  phase := .idle
  fcode := 0x00
  pending := []
  response := none

end Sys2Proof.Machine
end

