-- ==== Sys2Proof/Machine/Tables.lean ====
section
/-! DEFINITION. The constant ROM of the engine (10_state.md R32): IV, SIGMA, the parameter block, and the index
quadruples of a round. The values of IV and SIGMA are the spec's, which marks them as general knowledge (R80, R82;
log entry 7). -/

namespace Sys2Proof.Machine

/-- The initialization vector (R80). -/
def IV : Vector Word 8 :=
  #v[0x6A09E667F3BCC908, 0xBB67AE8584CAA73B, 0x3C6EF372FE94F82B, 0xA54FF53A5F1D36F1,
     0x510E527FADE682D1, 0x9B05688C2B3E6C1F, 0x1F83D9ABFB41BD6B, 0x5BE0CD19137E2179]

/-- The sigma schedule (R82): row `r` holds the message-word indices of round `r`. -/
def SIGMA : Vector (Vector (Fin 16) 16) 12 :=
  #v[#v[ 0,  1,  2,  3,  4,  5,  6,  7,  8,  9, 10, 11, 12, 13, 14, 15],
     #v[14, 10,  4,  8,  9, 15, 13,  6,  1, 12,  0,  2, 11,  7,  5,  3],
     #v[11,  8, 12,  0,  5,  2, 15, 13, 10, 14,  3,  6,  7,  1,  9,  4],
     #v[ 7,  9,  3,  1, 13, 12, 11, 14,  2,  6,  5, 10,  4,  0, 15,  8],
     #v[ 9,  0,  5,  7,  2,  4, 10, 15, 14,  1, 11, 12,  6,  8,  3, 13],
     #v[ 2, 12,  6, 10,  0, 11,  8,  3,  4, 13,  7,  5, 15, 14,  1,  9],
     #v[12,  5,  1, 15, 14, 13,  4, 10,  0,  7,  6,  3,  9,  2,  8, 11],
     #v[13, 11,  7, 14, 12,  1,  3,  9,  5,  0, 15,  4,  8,  6,  2, 10],
     #v[ 6, 15, 14,  9, 11,  3,  0,  8, 12,  2, 13,  7,  1,  4, 10,  5],
     #v[10,  2,  8,  4,  7,  6,  1,  5, 15, 11,  9, 14,  3, 12, 13,  0],
     #v[ 0,  1,  2,  3,  4,  5,  6,  7,  8,  9, 10, 11, 12, 13, 14, 15],
     #v[14, 10,  4,  8,  9, 15, 13,  6,  1, 12,  0,  2, 11,  7,  5,  3]]

/-- The fields of the parameter block in the order of their offsets (R110), with their default values as bytes,
little-endian (R44): digest_length, key_length, fanout, depth, leaf_length, node_offset, node_depth, inner_length,
reserved, salt, personal. -/
def paramFields : List (List Byte) :=
  [[64], [0], [1], [1], List.replicate 4 0, List.replicate 8 0, [0], [0],
   List.replicate 14 0, List.replicate 16 0, List.replicate 16 0]

/-- The default parameter block `PB[0..63]`: the fields packed in the listed order with no padding (R110, R112). -/
def PB : Vector Byte 64 := Vector.ofFn fun k => paramFields.flatten.getD k.val 0

/-- The index quadruples (a, b, c, d) of the eight G operations of a round: four column ones, then four diagonal ones
(R87). -/
def quadruples : Vector (Fin 16 × Fin 16 × Fin 16 × Fin 16) 8 :=
  #v[(0, 4, 8, 12), (1, 5, 9, 13), (2, 6, 10, 14), (3, 7, 11, 15),
     (0, 5, 10, 15), (1, 6, 11, 12), (2, 7, 8, 13), (3, 4, 9, 14)]

end Sys2Proof.Machine
end

