-- ==== Sys2Proof/Machine/Compression.lean ====
section
/-! DEFINITION. The compression function (40_compression.md R84 to R94): rotate right, G, the round, COMPRESS, and the
micro-step view of a compression. -/

namespace Sys2Proof.Machine

/-- Rotate right by `n`, for 0 < n < 64 (R84). -/
def rotr64 (x : Word) (n : Nat) : Word := (x >>> n) ||| (x <<< (64 - n))

/-- G, the mixing operation (R85), in the order of its lines: each reads what the ones before it wrote. The vector's
length is left open so that R85's worked examples on four words are its own; the engine uses it at 16. -/
def mixG {n : Nat} (v : Vector Word n) (a b c d : Fin n) (x y : Word) : Vector Word n :=
  let v := v.set a (v[a] + v[b] + x)
  let v := v.set d (rotr64 (v[d] ^^^ v[a]) 32)
  let v := v.set c (v[c] + v[d])
  let v := v.set b (rotr64 (v[b] ^^^ v[c]) 24)
  let v := v.set a (v[a] + v[b] + y)
  let v := v.set d (rotr64 (v[d] ^^^ v[a]) 16)
  let v := v.set c (v[c] + v[d])
  v.set b (rotr64 (v[b] ^^^ v[c]) 63)

/-- The first message word of G operation `i` of round `r`: `m[SIGMA[r][2i]]` (R86). -/
def wordX (m : Vector Word 16) (r : Fin 12) (i : Fin 8) : Word := m[SIGMA[r][2 * i.val]]

/-- The second message word of G operation `i` of round `r`: `m[SIGMA[r][2i + 1]]` (R86). -/
def wordY (m : Vector Word 16) (r : Fin 12) (i : Fin 8) : Word := m[SIGMA[r][2 * i.val + 1]]

/-- G operation number `i` of round `r`: its quadruple (R87) and its two message words (R86). -/
def mixStep (m : Vector Word 16) (r : Fin 12) (v : Vector Word 16) (i : Fin 8) : Vector Word 16 :=
  match quadruples[i] with
  | (a, b, c, d) => mixG v a b c d (wordX m r i) (wordY m r i)

/-- ROUND (R88): the eight G operations of round `r`, in the order i = 0..7. -/
def mixRound (m : Vector Word 16) (v : Vector Word 16) (r : Fin 12) : Vector Word 16 :=
  (List.finRange 8).foldl (mixStep m r) v

/-- The twelve rounds of the mixing network, one after another (R89, R92). -/
def mixRounds (m : Vector Word 16) (v : Vector Word 16) : Vector Word 16 :=
  (List.finRange 12).foldl (mixRound m) v

/-- The working vector at the start of a compression (R91). -/
def workingVector (h : Vector Word 8) (t0 t1 f0 f1 : Word) : Vector Word 16 :=
  #v[h[0], h[1], h[2], h[3], h[4], h[5], h[6], h[7],
     IV[0], IV[1], IV[2], IV[3],
     t0 ^^^ IV[4], t1 ^^^ IV[5], f0 ^^^ IV[6], f1 ^^^ IV[7]]

/-- The feed-forward: `h'[j] = h[j] ^ v[j] ^ v[j+8]` (R93). -/
def feedForward (h : Vector Word 8) (v : Vector Word 16) : Vector Word 8 :=
  Vector.ofFn fun j => h[j] ^^^ v[j.val] ^^^ v[j.val + 8]

/-- COMPRESS, the compression function (R92). -/
def compress (h : Vector Word 8) (block : Vector Byte 128) (t0 t1 f0 f1 : Word) : Vector Word 8 :=
  feedForward h (mixRounds (messageWords block) (workingVector h t0 t1 f0 f1))

/-- The sequencer at the start of a compression (R94): v and m set up (R90, R91), r and i at 0. -/
def sequencerLoad (w : Transient) (h : Vector Word 8) (block : Vector Byte 128) (t0 t1 f0 f1 : Word) : Transient :=
  { w with v := workingVector h t0 t1 f0 f1, m := messageWords block, r := 0, i := 0 }

/-- One internal step of the sequencer (R94): the G operation (r, i), then the next index, k = 8r + i counting up and
ending where it began. -/
def sequencerStep (w : Transient) : Transient :=
  { w with
    v := mixStep w.m w.r w.v w.i
    r := if w.i = 7 then w.r + 1 else w.r
    i := w.i + 1 }

/-- `k` internal steps of the sequencer. -/
def sequencerSteps (k : Nat) (w : Transient) : Transient :=
  match k with
  | 0 => w
  | k + 1 => sequencerSteps k (sequencerStep w)

end Sys2Proof.Machine
end

