-- ==== Sys2Proof/Machine/Flags.lean ====
section
/-! DEFINITION. The codes of phases, faults and results, and the status word (10_state.md R28 to R30; 60_exceptions.md
R141; 30_encoding.md R66). The engine has no condition code (R31). -/

namespace Sys2Proof.Machine

/-- The encoding of the register `phase` (R28). -/
def phaseCode (p : Phase) : BitVec 2 :=
  match p with
  | .idle => 0
  | .absorbing => 1
  | .faulted => 2

/-- The code of a fault, as `fcode` records it (R141). -/
def faultCode (c : FaultCode) : BitVec 8 :=
  match c with
  | .illegalCommand => 0x01
  | .sequence => 0x02
  | .counterOverflow => 0x03

/-- The code of a result, as the RESULT field reports it (R141). -/
def resultCode (r : ResultCode) : BitVec 8 :=
  match r with
  | .ok => 0x00
  | .fault c => faultCode c
  | .halted => 0x04

/-- The status word: `(fcode << 16) | (result << 8) | phase` (R30, R66). -/
def statusWord (p : Phase) (fcode : BitVec 8) (r : ResultCode) : BitVec 32 :=
  (fcode.setWidth 32 <<< 16) ||| ((resultCode r).setWidth 32 <<< 8) ||| (phaseCode p).setWidth 32

end Sys2Proof.Machine
end

