-- ==== Sys2Proof/Machine/Ops.lean ====
section
/-! DEFINITION. The named operations the commands are made of: writing a register, the counter addition, compressing
the buffer, the wipe, responding, fault entry, and the reset signal. -/

namespace Sys2Proof.Machine

/-! ### Writing one register -/

def Context.withH (c : Context) (h : Vector Word 8) : Context := { c with h := h }
def Context.withCounter (c : Context) (t0 t1 : Word) : Context := { c with t0 := t0, t1 := t1 }
def Context.withF0 (c : Context) (f0 : Word) : Context := { c with f0 := f0 }
def Context.withBuf (c : Context) (buf : Vector Byte 128) : Context := { c with buf := buf }
def Context.withBuflen (c : Context) (n : Fin 129) : Context := { c with buflen := n }

def State.withCtx (s : State) (c : Context) : State := { s with ctx := c }
def State.withWork (s : State) (w : Transient) : State := { s with work := w }
def State.withPhase (s : State) (p : Phase) : State := { s with phase := p }
def State.withFcode (s : State) (f : BitVec 8) : State := { s with fcode := f }
def State.withPending (s : State) (es : List HostEvent) : State := { s with pending := es }
def State.withResponse (s : State) (r : Option Response) : State := { s with response := r }

/-! ### The counter -/

/-- The byte counter as one 128-bit value (R23). -/
def Context.t (c : Context) : BitVec 128 := c.t1 ++ c.t0

/-- `CounterAdd(k)` (R113): the low word first, its carry into the high word. -/
def counterAdd (c : Context) (k : Nat) : Context :=
  let k : Word := BitVec.ofNat 64 k
  let t0 := c.t0 + k
  let carry : Word := if t0 < k then 1 else 0
  c.withCounter t0 (c.t1 + carry)

/-- Whether `n` more payload bytes would take the message past 2^128 − 1 bytes: `t + buflen + n > 2^128 - 1` (R144). -/
def wouldOverflow (c : Context) (n : Nat) : Bool := decide (2 ^ 128 - 1 < c.t.toNat + c.buflen.val + n)

/-! ### Compressing the buffer -/

/-- `h <- COMPRESS(h, MemRead(BUF, 0, 128), t, f0, f1)` as UPDATE and FINAL do it (R115, R120). The transient vector
and message words are left as the last round leaves them, the sequencer back at its start (R34, R94). -/
def compressBuffer (s : State) : State :=
  let c := s.ctx
  let m := messageWords c.buf
  let v := mixRounds m (workingVector c.h c.t0 c.t1 c.f0 c.f1)
  (s.withWork { s.work with v := v, m := m, r := 0, i := 0 }).withCtx (c.withH (feedForward c.h v))

/-! ### Ends of a command -/

/-- WIPE (R122): every context register and the transient state to zero. -/
def wipe (s : State) : State := (s.withCtx Context.zero).withWork Transient.zero

/-- `respond(result, digest)` (R66): the status word is formed from `phase` and `fcode` as the command leaves them. -/
def respond (result : ResultCode) (digest : Option (List Byte)) (s : State) : State :=
  s.withResponse (some { status := statusWord s.phase s.fcode result, digest := digest })

/-- `raise Fault(code)`: fault entry (R145). The context and the transient state are wiped, the code is recorded, the
phase becomes FAULTED, and the code is answered. Nothing is saved; only reset leads back (R146). -/
def raiseFault (code : FaultCode) (s : State) : State :=
  respond (.fault code) none (((wipe s).withFcode (faultCode code)).withPhase .faulted)

/-- The answer to every command in FAULTED: HALTED, nothing changed (R146). -/
def answerHalted (s : State) : State := respond .halted none s

/-- An illegal command (R142), after the check that comes before it (R147): HALTED in FAULTED, otherwise
ILLEGAL_COMMAND. -/
def illegalCommand (s : State) : State :=
  if s.phase = .faulted then answerHalted s else raiseFault .illegalCommand s

/-! ### Reset -/

/-- The reset signal (R160): every register to its reset value, no response. What the host has still to do is the
host's and stays. -/
def resetSignal (s : State) : State := State.reset.withPending s.pending

end Sys2Proof.Machine
end

