-- ==== Sys2Proof/Machine/Streaming.lean ====
section
/-! DEFINITION. The meanings of the three commands (41_streaming.md R114, R115, R120), each with the fault checks its
pseudocode begins with. -/

namespace Sys2Proof.Machine

/-! ### INIT -/

/-- The initial chaining state: `h[j] = IV[j] ^ le64(PB, 8j)` (R81, R114). -/
def initialChaining : Vector Word 8 :=
  Vector.ofFn fun j => IV[j] ^^^ le64 PB.toList (8 * j.val)

/-- INIT (R114): legal in IDLE and in ABSORBING; every context register is zeroed before h is loaded. -/
def execInit (s : State) : Host.Outcome State Fault Refusal :=
  if s.phase = .faulted then .next (answerHalted s)
  else .next (respond .ok none ((s.withCtx (Context.zero.withH initialChaining)).withPhase .absorbing))

/-! ### UPDATE -/

/-- A pass of UPDATE's loop when more payload remains than the buffer has room for (R115): the buffer is filled with
`chunk`, the counter grows by 128 BEFORE the compression (R116), the buffer is compressed and then empty. -/
def absorbBlock (s : State) (chunk : List Byte) : State :=
  let c := s.ctx.withBuf (memWrite s.ctx.buf s.ctx.buflen chunk)
  let s := compressBuffer (s.withCtx (counterAdd c 128))
  s.withCtx (s.ctx.withBuflen 0)

/-- The last pass of UPDATE's loop (R115): the payload that is left fits, is stored, and is not compressed, not even
when it exactly fills the buffer (R118). -/
def absorbTail (s : State) (tail : List Byte) (fits : tail.length ≤ 128 - s.ctx.buflen.val) : State :=
  s.withCtx ((s.ctx.withBuf (memWrite s.ctx.buf s.ctx.buflen tail)).withBuflen
    ⟨s.ctx.buflen.val + tail.length, by omega⟩)

/-- The loop of UPDATE (R115) on the payload not yet consumed; `remaining` holds its length (R34). At most one pass
consumes nothing (a full buffer at the start), so `|data| + 1` passes are enough fuel. -/
def absorbLoop (fuel : Nat) (s : State) (data : List Byte) : State :=
  match fuel with
  | 0 => s
  | fuel + 1 =>
    if data.length = 0 then s
    else
      let s := s.withWork { s.work with remaining := data.length }
      let fill := 128 - s.ctx.buflen.val
      if fits : data.length ≤ fill then absorbTail s data fits
      else absorbLoop fuel (absorbBlock s (data.take fill)) (data.drop fill)

/-- UPDATE (R115), its checks in the order of R147. The transient state is zero again when the command ends (R34). -/
def execUpdate (data : List Byte) (s : State) : Host.Outcome State Fault Refusal :=
  if s.phase = .faulted then .next (answerHalted s)
  else if s.phase = .idle then .next (raiseFault .sequence s)
  else if wouldOverflow s.ctx data.length then .next (raiseFault .counterOverflow s)
  else .next (respond .ok none ((absorbLoop (data.length + 1) s data).withWork Transient.zero))

/-! ### FINAL -/

/-- The context FINAL compresses (R120): the counter grows by `buflen`, not by 128; `f0` becomes all-ones; the bytes
from `buflen` on become zero. -/
def finalContext (c : Context) : Context :=
  let c := counterAdd c c.buflen
  let c := c.withF0 (~~~ 0)
  c.withBuf (memWrite c.buf c.buflen (List.replicate (128 - c.buflen.val) 0))

/-- FINAL (R120): the digest is taken from h after the final compression (R121), then everything is wiped (R122). -/
def execFinal (s : State) : Host.Outcome State Fault Refusal :=
  if s.phase = .faulted then .next (answerHalted s)
  else if s.phase = .idle then .next (raiseFault .sequence s)
  else
    let s := compressBuffer (s.withCtx (finalContext s.ctx))
    let digest := digestOf s.ctx.h
    .next (respond .ok (some digest) ((wipe s).withPhase .idle))

end Sys2Proof.Machine
end

