-- ==== Sys2Proof/Machine/Step.lean ====
section
/-! DEFINITION. One step of the machine: the host's next event, performed whole (00_scope.md R8; 20_memory.md R48,
R52; 30_encoding.md R73). -/

namespace Sys2Proof.Machine

/-- One step. The host's next event is taken from the port. A command is decoded (R65) and performed, or, where it
decodes to ILLEGAL, answered as R142 and R147 say; the reset signal resets (R160). With no event the engine waits and
holds its state unchanged (R156, R161). -/
def step (s : State) : Host.Outcome State Fault Refusal :=
  match s.pending with
  | [] => .next s
  | .reset :: rest => .next (resetSignal (s.withPending rest))
  | .command cw data :: rest =>
    match decode cw data with
    | .error _ => .next (illegalCommand (s.withPending rest))
    | .ok i => exec i (s.withPending rest)

/-- `s` with the command whose bits are `w` as the host's next event, before whatever the host was to do next (log
entry 3). -/
def State.withFetchWord (s : State) (nbits w : Nat) : State :=
  s.withPending (.command (tableTransaction nbits w).1 (tableTransaction nbits w).2 :: s.pending)

end Sys2Proof.Machine
end

