-- ==== Sys2Proof/Machine/Assembler.lean ====
section
/-! DEFINITION. The assembler language (30_encoding.md R70 to R72): byte operands, lines, the pseudo-instruction HASH,
the transactions a line emits, and the reading of a line of text. -/

namespace Sys2Proof.Machine

/-- A `<bytes>` operand (R71). -/
inductive ByteOperand where
  /-- `"text"`: the ASCII codes of the characters. -/
  | text (cs : List Char)
  /-- `x"hh..."`: hexadecimal digits, two per byte, first byte first. -/
  | hex (ds : List (Fin 16))
  /-- `zeros(n)`: n zero bytes. -/
  | zeros (n : Nat)
  /-- `ramp(n)`: byte k is `k mod 256`. -/
  | ramp (n : Nat)
  /-- `a ++ b`: the concatenation. -/
  | cat (a b : ByteOperand)
  deriving DecidableEq, Repr

/-- A line of a program (R70, R72). -/
inductive AsmLine where
  | init
  | update (op : ByteOperand)
  | final
  /-- `.word 0xHHHHHHHH [<bytes>]`: an arbitrary command word and payload. -/
  | word (cw : CmdWord) (op : Option ByteOperand)
  /-- The pseudo-instruction `HASH <bytes>`. -/
  | hash (op : ByteOperand)
  deriving DecidableEq, Repr

/-- A character a text operand may hold: printable, 0x20..0x7E, other than the double quote 0x22 (R71). -/
def textChar (c : Char) : Bool := 0x20 ≤ c.toNat && c.toNat ≤ 0x7E && c.toNat != 0x22

/-- Two hexadecimal digits a byte, the high one first; none for an odd number of digits (R71). -/
def hexBytes (ds : List (Fin 16)) : Option (List Byte) :=
  match ds with
  | [] => some []
  | [_] => none
  | hi :: lo :: rest => (hexBytes rest).map fun bs => BitVec.ofNat 8 (16 * hi.val + lo.val) :: bs

/-- The bytes of an operand (R71); none where it breaks the operand's own rule. -/
def operandBytes (op : ByteOperand) : Option (List Byte) :=
  match op with
  | .text cs => if cs.all textChar then some (cs.map fun c => BitVec.ofNat 8 c.toNat) else none
  | .hex ds => hexBytes ds
  | .zeros n => some (List.replicate n 0)
  | .ramp n => some ((List.range n).map fun k => BitVec.ofNat 8 k)
  | .cat a b =>
    match operandBytes a, operandBytes b with
    | some x, some y => some (x ++ y)
    | _, _ => none

/-- The transactions a line emits, in order (R70, R72). -/
def assembleLine (l : AsmLine) : Option (List (CmdWord × List Byte)) :=
  match l with
  | .init => some [encode .init]
  | .update op => (operandBytes op).map fun bs => [encode (.update bs)]
  | .final => some [encode .final]
  | .word cw none => some [(cw, [])]
  | .word cw (some op) => (operandBytes op).map fun bs => [(cw, bs)]
  | .hash op => (operandBytes op).map fun bs => [encode .init, encode (.update bs), encode .final]

/-- The transactions of a program: those of its lines, in order. -/
def assemble (ls : List AsmLine) : Option (List (CmdWord × List Byte)) :=
  match ls with
  | [] => some []
  | l :: rest =>
    match assembleLine l, assemble rest with
    | some x, some y => some (x ++ y)
    | _, _ => none

/-! ### Reading a line of text (R70, R71; log entry 11) -/

/-- The text after leading spaces and tabs. -/
def skipBlanks (cs : List Char) : List Char := cs.dropWhile fun c => c == ' ' || c == '\t'

/-- Whether only blanks and a comment, from `;` to the end of the line, are left (R70). -/
def atEnd (cs : List Char) : Bool :=
  match skipBlanks cs with
  | [] => true
  | c :: _ => c == ';'

/-- The rest of the text after the characters `w`, if it begins with them. -/
def after (w cs : List Char) : Option (List Char) :=
  match w, cs with
  | [], cs => some cs
  | _ :: _, [] => none
  | a :: w, c :: cs => if a = c then after w cs else none

/-- The value of a hexadecimal digit, of either case. -/
def hexDigit (c : Char) : Option (Fin 16) :=
  let n := c.toNat
  if 0x30 ≤ n ∧ n ≤ 0x39 then some (Fin.ofNat 16 (n - 0x30))
  else if 0x41 ≤ n ∧ n ≤ 0x46 then some (Fin.ofNat 16 (n - 0x41 + 10))
  else if 0x61 ≤ n ∧ n ≤ 0x66 then some (Fin.ofNat 16 (n - 0x61 + 10))
  else none

/-- The hexadecimal digits the text begins with, and the rest. -/
def hexDigits (cs : List Char) : List (Fin 16) × List Char :=
  match cs with
  | [] => ([], [])
  | c :: rest =>
    match hexDigit c with
    | none => ([], c :: rest)
    | some d => (d :: (hexDigits rest).1, (hexDigits rest).2)

/-- The decimal number the text begins with, at least one digit long, and the rest. -/
def decimal (cs : List Char) : Option (Nat × List Char) :=
  let digits := cs.takeWhile Char.isDigit
  if digits.isEmpty then none
  else some (digits.foldl (fun n c => 10 * n + (c.toNat - 0x30)) 0, cs.drop digits.length)

/-- The text up to a closing double quote (0x22), and the rest after it. A semicolon between the quotes is a character of
the text and begins no comment. DESIGN CHOICE, log entry 11: R70 and R71 do not say which of the two it is. -/
def quoted (cs : List Char) : Option (List Char × List Char) :=
  match cs with
  | [] => none
  | c :: rest => if c.toNat = 0x22 then some ([], rest) else (quoted rest).map fun p => (c :: p.1, p.2)

/-- `n)` after `zeros(` or `ramp(`. -/
def counted (cs : List Char) : Option (Nat × List Char) :=
  match decimal cs with
  | some (n, ')' :: rest) => some (n, rest)
  | _ => none

/-- One operand without `++` (R71). -/
def readAtom (cs : List Char) : Option (ByteOperand × List Char) :=
  match after ['z', 'e', 'r', 'o', 's', '('] cs, after ['r', 'a', 'm', 'p', '('] cs,
      after ['x', Char.ofNat 0x22] cs, after [Char.ofNat 0x22] cs with
  | some rest, _, _, _ => (counted rest).map fun p => (.zeros p.1, p.2)
  | _, some rest, _, _ => (counted rest).map fun p => (.ramp p.1, p.2)
  | _, _, some rest, _ => (after [Char.ofNat 0x22] (hexDigits rest).2).map fun r => (.hex (hexDigits rest).1, r)
  | _, _, _, some rest => (quoted rest).map fun p => (.text p.1, p.2)
  | _, _, _, _ => none

/-- An operand (R71): operands joined by `++`. Each one takes at least a character, so the text's length is enough
fuel. -/
def readOperand (fuel : Nat) (cs : List Char) : Option (ByteOperand × List Char) :=
  match fuel with
  | 0 => none
  | fuel + 1 =>
    match readAtom (skipBlanks cs) with
    | none => none
    | some (a, rest) =>
      match after ['+', '+'] (skipBlanks rest) with
      | none => some (a, rest)
      | some rest' => (readOperand fuel rest').map fun p => (.cat a p.1, p.2)

/-- An operand and then the end of the line. -/
def lastOperand (cs : List Char) : Option ByteOperand :=
  match readOperand (cs.length + 1) cs with
  | some (op, rest) => if atEnd rest then some op else none
  | none => none

/-- What follows `.word`: `0x` and eight hexadecimal digits, then perhaps an operand (R70). -/
def readWord (cs : List Char) : Option AsmLine :=
  match after ['0', 'x'] (skipBlanks cs) with
  | none => none
  | some rest =>
    let ds := (hexDigits rest).1
    let tail := (hexDigits rest).2
    if ds.length ≠ 8 then none
    else
      let cw : CmdWord := BitVec.ofNat 32 (ds.foldl (fun n d => 16 * n + d.val) 0)
      if atEnd tail then some (.word cw none)
      else (lastOperand tail).map fun op => .word cw (some op)

/-- The mnemonic a line begins with, and the rest: it ends at a blank, a `;` or the end of the line. -/
def mnemonic (cs : List Char) : List Char × List Char :=
  let w := cs.takeWhile fun c => !(c == ' ' || c == '\t' || c == ';')
  (w, cs.drop w.length)

/-- A line of text (R70): some none for a blank or comment line, none where it is no line of the language. -/
def readLine (cs : List Char) : Option (Option AsmLine) :=
  let cs := skipBlanks cs
  let (w, rest) := mnemonic cs
  if atEnd cs then some none
  else if w = ['I', 'N', 'I', 'T'] then if atEnd rest then some (some .init) else none
  else if w = ['F', 'I', 'N', 'A', 'L'] then if atEnd rest then some (some .final) else none
  else if w = ['U', 'P', 'D', 'A', 'T', 'E'] then (lastOperand rest).map fun op => some (.update op)
  else if w = ['H', 'A', 'S', 'H'] then (lastOperand rest).map fun op => some (.hash op)
  else if w = ['.', 'w', 'o', 'r', 'd'] then (readWord rest).map some
  else none

end Sys2Proof.Machine
end

