-- ==== Sys2Proof/Machine/System.lean ====
section
/-! DEFINITION. Several instances of the engine in one system (60_exceptions.md R154): each has its own state and its
own host, and they share only the constant tables, which no step writes. -/

namespace Sys2Proof.Machine

/-- A system of engines, each with its own context, phase, fcode and command port (R154). -/
structure System where
  engines : List State
  deriving DecidableEq, Repr

/-- One step of engine number `k`; where there is no such engine, nothing happens. -/
def stepEngine (k : Nat) (sys : System) : Host.Outcome System Fault Refusal :=
  match sys.engines[k]? with
  | none => .next sys
  | some s =>
    match step s with
    | .next s' => .next { sys with engines := sys.engines.set k s' }
    | .fault r => .fault r
    | .refused r => .refused r

end Sys2Proof.Machine
end

