-- ==== Sys2Proof/Safety.lean ====
section
/-! DEFINITION. What claims about the engine are stated in terms of: the invariant between commands (10_state.md R37),
running a sequence of commands, and the digest of a message as a function of the message alone (41_streaming.md
R123). -/

namespace Sys2Proof.Machine

/-- What holds between commands, phase by phase (R37), with the transient state zero (R34). That `fcode` is 0x00 in
ABSORBING is R29: no fault has been recorded. The bound on `buflen` is in its type. -/
abbrev State.Inv (s : State) : Prop :=
  s.work = Transient.zero ∧
  (s.phase = .idle → s.ctx = Context.zero ∧ s.fcode = 0x00) ∧
  (s.phase = .absorbing →
    s.ctx.f0 = 0 ∧ s.ctx.f1 = 0 ∧ s.ctx.t.toNat % 128 = 0 ∧ (0 < s.ctx.t.toNat → 1 ≤ s.ctx.buflen.val) ∧
    s.ctx.t.toNat + s.ctx.buflen.val ≤ 2 ^ 128 - 1 ∧ s.fcode = 0x00) ∧
  (s.phase = .faulted →
    s.ctx = Context.zero ∧ (s.fcode = 0x01 ∨ s.fcode = 0x02 ∨ s.fcode = 0x03))

/-- The state a fault with the code `code` leaves (R145): every context register and the transient state zero, the code
recorded and answered with no digest, the phase FAULTED, and the host's queue as the command left it. -/
def faultedState (code : BitVec 8) (pending : List HostEvent) : State where
  ctx := Context.zero
  work := Transient.zero
  phase := .faulted
  fcode := code
  pending := pending
  response := some ⟨(code.setWidth 32 <<< 16) ||| (code.setWidth 32 <<< 8) ||| 2, none⟩

/-- The state a command leaves that is answered HALTED: `s` but for the response (R146). -/
def haltedState (s : State) : State :=
  { s with response := some ⟨(s.fcode.setWidth 32 <<< 16) ||| 0x00000402, none⟩ }

/-- Commands performed one after another, each in the state the one before it left (R52). -/
def runCommands (is : List Instr) (s : State) : Host.Outcome State Fault Refusal :=
  match is with
  | [] => .next s
  | i :: rest =>
    match exec i s with
    | .next s' => runCommands rest s'
    | .fault r => .fault r
    | .refused r => .refused r

/-- The bytes received and not yet compressed, oldest first: `buf[0..buflen)` (R26). -/
def pendingBytes (c : Context) : List Byte := memRead c.buf 0 c.buflen

/-- Block number `k` of a byte sequence: its bytes from 128k on, and zeros past its end. -/
def blockAt (bytes : List Byte) (k : Nat) : Vector Byte 128 :=
  Vector.ofFn fun j => bytes.getD (128 * k + j.val) 0

/-- COMPRESS with the counter given as one number below 2^128 (R23, R92). -/
def compressAt (h : Vector Word 8) (block : Vector Byte 128) (t : Nat) (f0 f1 : Word) : Vector Word 8 :=
  compress h block (BitVec.ofNat 64 t) (BitVec.ofNat 64 (t / 2 ^ 64)) f0 f1

/-- The chaining state after `k` blocks of a byte sequence, the counter being `t` before the first of them: block
`c` is compressed with the counter `t + 128(c + 1)` (R116, R123). -/
def chainAfter (h : Vector Word 8) (t : Nat) (f0 f1 : Word) (bytes : List Byte) (k : Nat) : Vector Word 8 :=
  match k with
  | 0 => h
  | k + 1 => compressAt (chainAfter h t f0 f1 bytes k) (blockAt bytes k) (t + 128 * (k + 1)) f0 f1

/-- How many of `n` bytes' blocks UPDATE compresses: `max(0, ceil(n / 128) − 1)` (R119). -/
def interiorBlocks (n : Nat) : Nat := (n + 127) / 128 - 1

/-- The digest of a message as R123 describes it: every block but the last is compressed with the count of the bytes up
to its end, the last, padded with zeros, with the message's length and the finalization flag. -/
def hashOf (message : List Byte) : List Byte :=
  let k := interiorBlocks message.length
  digestOf (compressAt (chainAfter initialChaining 0 0 0 message k) (blockAt message k) message.length (~~~ 0) 0)

end Sys2Proof.Machine
end

