-- ==== Sys2Proof/Certificates/Slice0/Obligations.lean ====
section
/-! DEFINITION. The statements for the provers, file by file of the spec. OBLIGATIONS.json lists them. "The port" below
is the model's own pair of fields `pending` and `response` (log entries 1, 2); every statement about `step` reads the
host's events from it. -/

open Sys2Proof Sys2Proof.Machine

/-! ### Encoding (30_encoding.md) -/

/-- R62, R63, R65: a transaction decodes to INIT, UPDATE(data) or FINAL exactly when its command word is that
command's and its payload one the command takes. -/
def Obligations.DecodeFollowsOpcodeMap : Prop :=
  ∀ (cw : CmdWord) (data : List Byte) (i : Instr),
    decode cw data = .ok i ↔
      (cw = 0x00000001 ∧ data = [] ∧ i = .init) ∨
      (cw = 0x00000002 ∧ i = .update data) ∨
      (cw = 0x00000003 ∧ data = [] ∧ i = .final)

/-- Decode and encode agree both ways, for every well-formed instruction, the payload at every value: nothing of a
transaction is dropped. Derived from R62 and R65. -/
def Obligations.EncodeDecodeAgree : Prop :=
  (∀ i : Instr, i.wellFormed = true → decode (encode i).1 (encode i).2 = .ok i) ∧
  (∀ (cw : CmdWord) (data : List Byte) (i : Instr), decode cw data = .ok i →
    i.wellFormed = true ∧ encode i = (cw, data))

/-- R64, R142: a transaction is refused by the decoder exactly when a clause of R64 holds, and then it raises
ILLEGAL_COMMAND, in IDLE and in ABSORBING alike. -/
def Obligations.IllegalTransactionsRaiseFault : Prop :=
  ∀ (cw : CmdWord) (data : List Byte),
    let op := (cw.extractLsb' 0 8).toNat
    ((∃ e, decode cw data = .error e) ↔
      (op = 0x00 ∨ (0x04 ≤ op ∧ op ≤ 0xFF)) ∨ cw.extractLsb' 8 24 ≠ 0 ∨ ((op = 0x01 ∨ op = 0x03) ∧ data ≠ [])) ∧
    (∀ (s : State) (rest : List HostEvent), s.pending = .command cw data :: rest → s.phase ≠ .faulted →
      (∃ e, decode cw data = .error e) → step s = .next (faultedState 0x01 rest))

/-- The words of 95_test_vectors.md section 3.9, each with what it decodes to. -/
def Obligations.SampleWordsDecode : Prop :=
  decode 0x00000001 [] = .ok .init ∧ decode 0x00000001 [0x00] = .error .payloadOnInit ∧
  decode 0x00000002 [] = .ok (.update []) ∧
  decode 0x00000002 [0x61, 0x62, 0x63] = .ok (.update [0x61, 0x62, 0x63]) ∧
  decode 0x00000003 [] = .ok .final ∧ decode 0x00000003 [0x00] = .error .payloadOnFinal ∧
  decode 0x00000000 [] = .error .undefinedOpcode ∧ decode 0x00000004 [] = .error .undefinedOpcode ∧
  decode 0x000000FF [] = .error .undefinedOpcode ∧
  decode 0x00000102 [0x61] = .error .reservedBits ∧ decode 0x80000003 [] = .error .reservedBits

/-- A step whose next event is a command that decodes is exec of that command, in the state in which the event has
been taken from the port. That the command comes from the head of `pending` is the model's choice (log entry 1). -/
def Obligations.StepRunsDecodedCommand : Prop :=
  ∀ (s : State) (cw : CmdWord) (data : List Byte) (rest : List HostEvent) (i : Instr),
    s.pending = .command cw data :: rest → decode cw data = .ok i →
    step s = exec i { s with pending := rest }

/-- The command placed at the port is the next one performed, whatever else the host was to do. The placing is the
model's (log entry 3). -/
def Obligations.PlacedCommandRunsNext : Prop :=
  ∀ (s : State) (nbits w : Nat) (i : Instr), decodeTableWord nbits w = some i →
    step (s.withFetchWord nbits w) = exec i s

/-- R72: HASH performs INIT, UPDATE and FINAL, ends in IDLE, and its digest is the digest of the FINAL, which is that of
the operand's bytes. The digest function is `hashOf` (derived, R123). -/
def Obligations.HashPseudoInstructionDigest : Prop :=
  ∀ (s : State) (op : ByteOperand) (bytes : List Byte) (emitted : List (CmdWord × List Byte)) (rest : List HostEvent),
    s.phase ≠ .faulted → operandBytes op = some bytes → bytes.length ≤ 2 ^ 128 - 1 →
    assembleLine (.hash op) = some emitted →
    s.pending = emitted.map (fun p => HostEvent.command p.1 p.2) ++ rest →
    ∃ t, Host.Core.run core 3 s = .next t ∧ t.phase = .idle ∧ t.pending = rest ∧
      t.response = some ⟨statusWord .idle s.fcode .ok, some (hashOf bytes)⟩

/-- R70, R72: what each line emits, in the command words of R62. A line whose operand is refused emits nothing. A line
that is not `.word` emits legal transactions only, one, or for HASH three, and each decodes. -/
def Obligations.AssemblerEmitsLegalCommands : Prop :=
  (∀ (l : AsmLine) (emitted : List (CmdWord × List Byte)),
    assembleLine l = some emitted → (∀ cw op, l ≠ .word cw op) →
    (∀ p ∈ emitted, legalCommand p.1 p.2 = true ∧ ∃ i, decode p.1 p.2 = .ok i) ∧
    emitted.length = (match l with | .hash _ => 3 | _ => 1)) ∧
  assembleLine .init = some [(0x00000001, [])] ∧
  assembleLine .final = some [(0x00000003, [])] ∧
  (∀ op bytes, operandBytes op = some bytes →
    assembleLine (.update op) = some [(0x00000002, bytes)] ∧
    assembleLine (.hash op) = some [(0x00000001, []), (0x00000002, bytes), (0x00000003, [])] ∧
    ∀ cw, assembleLine (.word cw (some op)) = some [(cw, bytes)]) ∧
  (∀ cw, assembleLine (.word cw none) = some [(cw, [])]) ∧
  (∀ op, operandBytes op = none →
    assembleLine (.update op) = none ∧ assembleLine (.hash op) = none ∧
    ∀ cw, assembleLine (.word cw (some op)) = none)

/-- R71: the bytes of every form of operand. -/
def Obligations.OperandBytesByForm : Prop :=
  (∀ cs : List Char,
    operandBytes (.text cs) =
      if ∀ c ∈ cs, 0x20 ≤ c.toNat ∧ c.toNat ≤ 0x7E ∧ c.toNat ≠ 0x22 then
        some (cs.map fun c => BitVec.ofNat 8 c.toNat)
      else none) ∧
  (∀ ds : List (Fin 16),
    (ds.length % 2 = 1 → operandBytes (.hex ds) = none) ∧
    (ds.length % 2 = 0 → ∃ bs, operandBytes (.hex ds) = some bs ∧ bs.length = ds.length / 2 ∧
      ∀ k, k < bs.length →
        (bs.getD k 0).toNat = 16 * (ds.getD (2 * k) 0).val + (ds.getD (2 * k + 1) 0).val)) ∧
  (∀ n, ∃ bs, operandBytes (.zeros n) = some bs ∧ bs.length = n ∧ ∀ b ∈ bs, b = 0) ∧
  (∀ n, ∃ bs, operandBytes (.ramp n) = some bs ∧ bs.length = n ∧ ∀ k, k < n → (bs.getD k 0).toNat = k % 256) ∧
  (∀ a b x y, operandBytes a = some x → operandBytes b = some y → operandBytes (.cat a b) = some (x ++ y))

/-! ### Reset (70_reset_and_hazards.md, 10_state.md) -/

/-- R36: after reset every register is 0, the phase IDLE, the fault code 0x00. Derived: the constant tables hold the
values of R80, R82 and R110, those of R80 and R82 being ones the spec marks as general knowledge (log entry 7). -/
def Obligations.ResetValues : Prop :=
  (∀ j : Fin 8, State.reset.ctx.h[j] = 0) ∧ State.reset.ctx.t = 0 ∧
  State.reset.ctx.f0 = 0 ∧ State.reset.ctx.f1 = 0 ∧
  (∀ j : Fin 128, State.reset.ctx.buf[j] = 0) ∧ State.reset.ctx.buflen.val = 0 ∧
  State.reset.phase = .idle ∧ State.reset.fcode = 0x00 ∧
  (∀ j : Fin 16, State.reset.work.v[j] = 0) ∧ (∀ j : Fin 16, State.reset.work.m[j] = 0) ∧
  State.reset.work.r.val = 0 ∧ State.reset.work.i.val = 0 ∧ State.reset.work.remaining = 0 ∧
  IV.toList = [0x6A09E667F3BCC908, 0xBB67AE8584CAA73B, 0x3C6EF372FE94F82B, 0xA54FF53A5F1D36F1,
    0x510E527FADE682D1, 0x9B05688C2B3E6C1F, 0x1F83D9ABFB41BD6B, 0x5BE0CD19137E2179] ∧
  PB.toList = [0x40, 0x00, 0x01, 0x01] ++ List.replicate 60 0x00 ∧
  SIGMA.toList.map (fun row => row.toList.map Fin.val) =
    [[ 0,  1,  2,  3,  4,  5,  6,  7,  8,  9, 10, 11, 12, 13, 14, 15],
     [14, 10,  4,  8,  9, 15, 13,  6,  1, 12,  0,  2, 11,  7,  5,  3],
     [11,  8, 12,  0,  5,  2, 15, 13, 10, 14,  3,  6,  7,  1,  9,  4],
     [ 7,  9,  3,  1, 13, 12, 11, 14,  2,  6,  5, 10,  4,  0, 15,  8],
     [ 9,  0,  5,  7,  2,  4, 10, 15, 14,  1, 11, 12,  6,  8,  3, 13],
     [ 2, 12,  6, 10,  0, 11,  8,  3,  4, 13,  7,  5, 15, 14,  1,  9],
     [12,  5,  1, 15, 14, 13,  4, 10,  0,  7,  6,  3,  9,  2,  8, 11],
     [13, 11,  7, 14, 12,  1,  3,  9,  5,  0, 15,  4,  8,  6,  2, 10],
     [ 6, 15, 14,  9, 11,  3,  0,  8, 12,  2, 13,  7,  1,  4, 10,  5],
     [10,  2,  8,  4,  7,  6,  1,  5, 15, 11,  9, 14,  3, 12, 13,  0],
     [ 0,  1,  2,  3,  4,  5,  6,  7,  8,  9, 10, 11, 12, 13, 14, 15],
     [14, 10,  4,  8,  9, 15, 13,  6,  1, 12,  0,  2, 11,  7,  5,  3]]

/-- R160: the reset signal sets every register to its reset value and sends no response. That it is an event of the
port, and that the port keeps the events after it, is the model's choice (log entry 1). -/
def Obligations.ResetSignalResets : Prop :=
  ∀ (s : State) (rest : List HostEvent), s.pending = .reset :: rest →
    step s = .next { State.reset with pending := rest } ∧ State.reset.response = none

/-- With nothing to perform the engine holds its state (R156, R161; that a step may find nothing is the model's, log
entry 3). -/
def Obligations.StepWaitsForCommand : Prop :=
  ∀ s : State, s.pending = [] → step s = .next s

/-- The invariant between commands holds right after reset (R36, R37; its clause on the transient state is R34's). -/
def Obligations.ResetSatisfiesInvariant : Prop := State.reset.Inv

/-- Every step keeps the invariant between commands (R37, derived by the spec; R34, R29): from every state that meets
it, not only those a run reaches. -/
def Obligations.StepKeepsInvariant : Prop :=
  ∀ s t : State, s.Inv → step s = .next t → t.Inv

/-! ### Byte order and the counter (20_memory.md, 41_streaming.md) -/

/-- R40, R90: byte k of an eight-byte group is bits [8k+7:8k] of its word, in each of the three conversions the engine
makes: the block, the parameter block, the digest. -/
def Obligations.ConversionsAreLittleEndian : Prop :=
  (∀ (block : Vector Byte 128) (i : Fin 16), (messageWords block)[i] = le64 block.toList (8 * i.val)) ∧
  (∀ (block : Vector Byte 128) (i : Fin 16) (k : Fin 8),
    (messageWords block)[i].extractLsb' (8 * k.val) 8 = block[8 * i.val + k.val]) ∧
  (∀ (j k : Fin 8), (le64 PB.toList (8 * j.val)).extractLsb' (8 * k.val) 8 = PB[8 * j.val + k.val]) ∧
  (∀ (h : Vector Word 8) (j k : Fin 8),
    (digestOf h).getD (8 * j.val + k.val) 0 = h[j].extractLsb' (8 * k.val) 8)

/-- R41: the little-endian read, as a sum and bit by bit, with the rule's worked example. -/
def Obligations.ReadWordLittleEndian : Prop :=
  (∀ (s : List Byte) (o : Nat), o + 8 ≤ s.length →
    (le64 s o).toNat =
      (s.getD o 0).toNat + (s.getD (o + 1) 0).toNat * 2 ^ 8 + (s.getD (o + 2) 0).toNat * 2 ^ 16 +
      (s.getD (o + 3) 0).toNat * 2 ^ 24 + (s.getD (o + 4) 0).toNat * 2 ^ 32 + (s.getD (o + 5) 0).toNat * 2 ^ 40 +
      (s.getD (o + 6) 0).toNat * 2 ^ 48 + (s.getD (o + 7) 0).toNat * 2 ^ 56 ∧
    ∀ k, k < 8 → (le64 s o).extractLsb' (8 * k) 8 = s.getD (o + k) 0) ∧
  le64 [0x61, 0x62, 0x63, 0, 0, 0, 0, 0] 0 = 0x0000000000636261

/-- Writing a word and reading it back gives the word (R42, which the spec derives from R41), with its worked example. -/
def Obligations.WriteThenReadWord : Prop :=
  (∀ w : Word, (le64bytes w).length = 8 ∧ le64 (le64bytes w) 0 = w ∧
    ∀ k, k < 8 → (le64bytes w).getD k 0 = w.extractLsb' (8 * k) 8) ∧
  le64bytes 0x0D4D1C983FA580BA = [0xBA, 0x80, 0xA5, 0x3F, 0x98, 0x1C, 0x4D, 0x0D]

/-- What MemWrite puts into the buffer MemRead gives back, and every byte outside is as before (R12's primitives, for
the ranges R12 allows). -/
def Obligations.BufferReadAfterWrite : Prop :=
  ∀ (buf : Vector Byte 128) (a : Nat) (s : List Byte), a + s.length ≤ 128 →
    memRead (memWrite buf a s) a s.length = s ∧
    ∀ j : Fin 128, (j.val < a ∨ a + s.length ≤ j.val) → (memWrite buf a s)[j] = buf[j]

/-- CounterAdd is 128-bit addition (R113; the word-wise carry is the spec's own formulation of it) and writes nothing
but the counter. -/
def Obligations.CounterAddIsWideAddition : Prop :=
  ∀ (c : Context) (k : Nat), k ≤ 128 →
    (counterAdd c k).t = c.t + BitVec.ofNat 128 k ∧
    (counterAdd c k) = { c with t0 := (c.t + BitVec.ofNat 128 k).extractLsb' 0 64, t1 := (c.t + BitVec.ofNat 128 k).extractLsb' 64 64 }

/-! ### The compression function (40_compression.md) -/

/-- R84: rotate right is the two logical shifts, bit by bit the bit `(k + n) mod 64`, and by 63 a rotate left by 1. -/
def Obligations.RotateRightBits : Prop :=
  (∀ (x : Word) (n : Nat), 0 < n → n < 64 →
    (rotr64 x n).toNat = ((x.toNat / 2 ^ n) ||| (x.toNat * 2 ^ (64 - n))) % 2 ^ 64 ∧
    ∀ k, k < 64 → (rotr64 x n).getLsbD k = x.getLsbD ((k + n) % 64)) ∧
  (∀ x : Word, rotr64 x 63 = x.rotateLeft 1) ∧
  rotr64 0x8000000000000001 32 = 0x0000000180000000 ∧ rotr64 0x8000000000000001 63 = 0x0000000000000003

/-- R85: for four distinct indices, what G leaves in each of the four words, line by line, and every other word as it
was; with the rule's corner cases. -/
def Obligations.MixGWritesFourWords : Prop :=
  (∀ (n : Nat) (v : Vector Word n) (a b c d : Fin n) (x y : Word), [a, b, c, d].Nodup →
    let a1 := v[a] + v[b] + x
    let d1 := rotr64 (v[d] ^^^ a1) 32
    let c1 := v[c] + d1
    let b1 := rotr64 (v[b] ^^^ c1) 24
    let a2 := a1 + b1 + y
    let d2 := rotr64 (d1 ^^^ a2) 16
    let c2 := c1 + d2
    let b2 := rotr64 (b1 ^^^ c2) 63
    let v' := mixG v a b c d x y
    v'[a] = a2 ∧ v'[b] = b2 ∧ v'[c] = c2 ∧ v'[d] = d2 ∧
    ∀ j : Fin n, j ∉ [a, b, c, d] → v'[j] = v[j]) ∧
  mixG #v[0, 0, 0, 0] (0 : Fin 4) 1 2 3 0 0 = #v[0, 0, 0, 0] ∧
  mixG #v[~~~ 0, ~~~ 0, ~~~ 0, ~~~ 0] (0 : Fin 4) 1 2 3 (~~~ 0) (~~~ 0) =
    #v[0x000000FFFFFFFDFC, 0xFBF801FBFE0403FD, 0xFDFC000200FDFFFE, 0xFDFC000000FDFFFF] ∧
  mixG #v[1, 0, 0, 0] (0 : Fin 4) 1 2 3 0 0 =
    #v[0x0000000000000101, 0x0202000200020200, 0x0101000100010000, 0x0101000000010000]

/-- R86, R87, R88: the wiring of a round. G operation i of round r is G on the quadruple of R87 with the message words
m[SIGMA[r][2i]] and m[SIGMA[r][2i + 1]], and a round is the eight of them in order. R86 is marked as general knowledge
(log entry 7). -/
def Obligations.RoundFollowsWiring : Prop :=
  ∀ (m : Vector Word 16) (r : Fin 12),
    (∀ v : Vector Word 16,
      mixStep m r v 0 = mixG v 0 4 8 12 m[SIGMA[r][0]] m[SIGMA[r][1]] ∧
      mixStep m r v 1 = mixG v 1 5 9 13 m[SIGMA[r][2]] m[SIGMA[r][3]] ∧
      mixStep m r v 2 = mixG v 2 6 10 14 m[SIGMA[r][4]] m[SIGMA[r][5]] ∧
      mixStep m r v 3 = mixG v 3 7 11 15 m[SIGMA[r][6]] m[SIGMA[r][7]] ∧
      mixStep m r v 4 = mixG v 0 5 10 15 m[SIGMA[r][8]] m[SIGMA[r][9]] ∧
      mixStep m r v 5 = mixG v 1 6 11 12 m[SIGMA[r][10]] m[SIGMA[r][11]] ∧
      mixStep m r v 6 = mixG v 2 7 8 13 m[SIGMA[r][12]] m[SIGMA[r][13]] ∧
      mixStep m r v 7 = mixG v 3 4 9 14 m[SIGMA[r][14]] m[SIGMA[r][15]]) ∧
    ∀ v0 : Vector Word 16,
      let v1 := mixG v0 0 4 8 12 m[SIGMA[r][0]] m[SIGMA[r][1]]
      let v2 := mixG v1 1 5 9 13 m[SIGMA[r][2]] m[SIGMA[r][3]]
      let v3 := mixG v2 2 6 10 14 m[SIGMA[r][4]] m[SIGMA[r][5]]
      let v4 := mixG v3 3 7 11 15 m[SIGMA[r][6]] m[SIGMA[r][7]]
      let v5 := mixG v4 0 5 10 15 m[SIGMA[r][8]] m[SIGMA[r][9]]
      let v6 := mixG v5 1 6 11 12 m[SIGMA[r][10]] m[SIGMA[r][11]]
      let v7 := mixG v6 2 7 8 13 m[SIGMA[r][12]] m[SIGMA[r][13]]
      let v8 := mixG v7 3 4 9 14 m[SIGMA[r][14]] m[SIGMA[r][15]]
      mixRound m v0 r = v8

/-- The four column operations of a round may run in any order, and so may the four diagonal ones after them: the round
is the same (R89, R94). -/
def Obligations.OrderWithinStepIsFree : Prop :=
  ∀ (m v : Vector Word 16) (r : Fin 12) (columns diagonals : List (Fin 8)),
    columns.Perm [0, 1, 2, 3] → diagonals.Perm [4, 5, 6, 7] →
    (columns ++ diagonals).foldl (mixStep m r) v = mixRound m v r

/-- Derived from R91, R93 and the micro-step view (R94): the sequencer starts from the working vector of R91 and the
block's words; after 8k of its G operations k rounds are done and it stands at round k, for k = 12 at round 0 again; and
COMPRESS is the feed-forward of what its 96 operations leave. That the sequencer's indices end where they began, and are
zero outside a compression, is the model's (log entries 4, 13). -/
def Obligations.SequencerComputesCompress : Prop :=
  ∀ (w : Transient) (h : Vector Word 8) (block : Vector Byte 128) (t0 t1 f0 f1 : Word),
    let start := sequencerLoad w h block t0 t1 f0 f1
    let done := sequencerSteps 96 start
    (∀ j : Fin 8, start.v[j.val] = h[j]) ∧ (∀ j : Fin 4, start.v[j.val + 8] = IV[j.val]) ∧
    start.v[12] = t0 ^^^ IV[4] ∧ start.v[13] = t1 ^^^ IV[5] ∧
    start.v[14] = f0 ^^^ IV[6] ∧ start.v[15] = f1 ^^^ IV[7] ∧
    start.m = messageWords block ∧
    (∀ k, k ≤ 12 → sequencerSteps (8 * k) start =
      { start with v := ((List.finRange 12).take k).foldl (mixRound start.m) start.v, r := Fin.ofNat 12 k }) ∧
    (∀ j : Fin 8, (compress h block t0 t1 f0 f1)[j] = h[j] ^^^ done.v[j.val] ^^^ done.v[j.val + 8])

/-! ### INIT, UPDATE, FINAL (41_streaming.md) -/

/-- R114: INIT, in every state. It completes in IDLE and in ABSORBING with the whole next state given; in FAULTED it is
answered HALTED. -/
def Obligations.InitStartsMessage : Prop :=
  decode 0x00000001 [] = .ok .init ∧ (∀ data : List Byte, data ≠ [] → ∃ e, decode 0x00000001 data = .error e) ∧
  (∀ s : State, s.phase = .faulted → exec .init s = .next (haltedState s)) ∧
  (∀ s : State, s.phase ≠ .faulted →
    ∃ h : Vector Word 8,
      (∀ j : Fin 8, h[j] = IV[j] ^^^ le64 PB.toList (8 * j.val)) ∧
      h = #v[0x6A09E667F2BDC948, 0xBB67AE8584CAA73B, 0x3C6EF372FE94F82B, 0xA54FF53A5F1D36F1,
             0x510E527FADE682D1, 0x9B05688C2B3E6C1F, 0x1F83D9ABFB41BD6B, 0x5BE0CD19137E2179] ∧
      exec .init s = .next
        { ctx := { h := h, t0 := 0, t1 := 0, f0 := 0, f1 := 0, buf := Vector.replicate 128 0, buflen := 0 }
          work := s.work, phase := .absorbing, fcode := s.fcode, pending := s.pending
          response := some ⟨statusWord .absorbing s.fcode .ok, none⟩ }) ∧
  statusWord .absorbing State.reset.fcode .ok = 0x00000001

/-- R115, R116: UPDATE, in every state. HALTED in FAULTED, SEQUENCE in IDLE, COUNTER_OVERFLOW past 2^128 − 1 bytes.
Otherwise: a payload that fits the buffer is stored in it, and nothing else of the context changes; a payload that
exceeds it fills it, the counter grows by 128, the full buffer is compressed with that counter, and the command is then
UPDATE of the rest from there. -/
def Obligations.UpdateFollowsBlockLoop : Prop :=
  ∀ (data : List Byte) (s : State),
    let b := s.ctx.buflen.val
    decode 0x00000002 data = .ok (.update data) ∧
    (s.phase = .faulted → exec (.update data) s = .next (haltedState s)) ∧
    (s.phase = .idle → exec (.update data) s = .next (faultedState 0x02 s.pending)) ∧
    (s.phase = .absorbing → s.ctx.t.toNat + b + data.length > 2 ^ 128 - 1 →
      exec (.update data) s = .next (faultedState 0x03 s.pending)) ∧
    (s.phase = .absorbing → s.ctx.t.toNat + b + data.length ≤ 2 ^ 128 - 1 → data.length ≤ 128 - b →
      ∃ (buf : Vector Byte 128) (buflen : Fin 129),
        (∀ j : Fin 128, buf[j] = if b ≤ j.val ∧ j.val < b + data.length then data.getD (j.val - b) 0 else s.ctx.buf[j]) ∧
        buflen.val = b + data.length ∧
        exec (.update data) s = .next
          { s with
            ctx := { s.ctx with buf := buf, buflen := buflen }
            work := Transient.zero
            response := some ⟨statusWord .absorbing s.fcode .ok, none⟩ }) ∧
    (s.phase = .absorbing → s.ctx.t.toNat + b + data.length ≤ 2 ^ 128 - 1 → data.length > 128 - b →
      ∃ c : Context,
        (∀ j : Fin 128, c.buf[j] = if b ≤ j.val then data.getD (j.val - b) 0 else s.ctx.buf[j]) ∧
        c.t.toNat = s.ctx.t.toNat + 128 ∧ c.f0 = s.ctx.f0 ∧ c.f1 = s.ctx.f1 ∧
        c.h = compress s.ctx.h c.buf c.t0 c.t1 c.f0 c.f1 ∧ c.buflen = 0 ∧
        exec (.update data) s = exec (.update (data.drop (128 - b))) { s with ctx := c })

/-- What a whole UPDATE does, block by block of the pending bytes followed by the payload (R116, R118, R119, R123, which
the spec derives from R115): how many blocks it compresses, each with which counter; which bytes stay pending; which
bytes of the buffer are left over from before (R26); that no byte is lost and the counter does not wrap (R126); and
that every other register is as it was. -/
def Obligations.UpdateAbsorbsBlockStream : Prop :=
  ∀ (data : List Byte) (s : State), s.phase = .absorbing →
    s.ctx.t.toNat + s.ctx.buflen.val + data.length ≤ 2 ^ 128 - 1 →
    let stream := pendingBytes s.ctx ++ data
    let k := interiorBlocks (s.ctx.buflen.val + data.length)
    ∃ c : Context,
      exec (.update data) s = .next
        { s with ctx := c, work := Transient.zero, response := some ⟨statusWord .absorbing s.fcode .ok, none⟩ } ∧
      c.h = chainAfter s.ctx.h s.ctx.t.toNat s.ctx.f0 s.ctx.f1 stream k ∧
      c.t.toNat = s.ctx.t.toNat + 128 * k ∧
      c.buflen.val + 128 * k = s.ctx.buflen.val + data.length ∧
      (0 < s.ctx.buflen.val + data.length → 0 < c.buflen.val) ∧
      pendingBytes c = stream.drop (128 * k) ∧
      (∀ j : Fin 128, c.buflen.val ≤ j.val →
        c.buf[j] = if k = 0 then s.ctx.buf[j] else stream.getD (128 * (k - 1) + j.val) 0) ∧
      c.f0 = s.ctx.f0 ∧ c.f1 = s.ctx.f1

/-- UPDATE with an empty payload between commands of a message changes nothing and answers OK (R117, derived by the
spec; the transient state is zero there, R34). -/
def Obligations.UpdateEmptyChangesNothing : Prop :=
  ∀ s : State, s.Inv → s.phase = .absorbing →
    exec (.update []) s = .next { s with response := some ⟨0x00000001, none⟩ }

/-- Incremental equivalence, one split (R124, derived by the spec): an accepted UPDATE followed by another is the one
UPDATE of both payloads, in the whole state and in the response, whether or not the second is accepted. -/
def Obligations.UpdateSplitEqualsWhole : Prop :=
  ∀ (first second : List Byte) (s : State), s.phase = .absorbing →
    s.ctx.t.toNat + s.ctx.buflen.val + first.length ≤ 2 ^ 128 - 1 →
    runCommands [.update first, .update second] s = exec (.update (first ++ second)) s

/-- R120, R121, R122: FINAL, in every state. HALTED in FAULTED, SEQUENCE in IDLE. In ABSORBING it completes: the final
compression is of the padded buffer, with the counter grown by the fill length (it does not wrap, between commands) and
f0 all-ones; the digest is the 64 bytes of its result; and every context register and the transient state are zero
afterwards, the phase IDLE, fcode and the port's queue as they were. -/
def Obligations.FinalEndsMessage : Prop :=
  decode 0x00000003 [] = .ok .final ∧
  ∀ s : State,
    (s.phase = .faulted → exec .final s = .next (haltedState s)) ∧
    (s.phase = .idle → exec .final s = .next (faultedState 0x02 s.pending)) ∧
    (s.phase = .absorbing →
      ∃ (block : Vector Byte 128) (t : BitVec 128) (h : Vector Word 8) (digest : List Byte),
        (∀ j : Fin 128, block[j] = if j.val < s.ctx.buflen.val then s.ctx.buf[j] else 0) ∧
        t = s.ctx.t + BitVec.ofNat 128 s.ctx.buflen.val ∧
        (s.Inv → t.toNat = s.ctx.t.toNat + s.ctx.buflen.val) ∧
        h = compress s.ctx.h block (t.extractLsb' 0 64) (t.extractLsb' 64 64) (~~~ 0) s.ctx.f1 ∧
        digest.length = 64 ∧
        (∀ j k : Fin 8, digest.getD (8 * j.val + k.val) 0 = h[j].extractLsb' (8 * k.val) 8) ∧
        exec .final s = .next
          { ctx := { h := Vector.replicate 8 0, t0 := 0, t1 := 0, f0 := 0, f1 := 0,
                     buf := Vector.replicate 128 0, buflen := 0 }
            work := Transient.zero, phase := .idle, fcode := s.fcode, pending := s.pending
            response := some ⟨statusWord .idle s.fcode .ok, some digest⟩ })

/-- The digest of a message sent in any pieces (R123, R124, derived by the spec): INIT, one UPDATE a piece, FINAL, from
any state that is not FAULTED, answer the digest of the pieces put together, and leave the context wiped. -/
def Obligations.DigestOfPieces : Prop :=
  ∀ (pieces : List (List Byte)) (s : State), s.phase ≠ .faulted → pieces.flatten.length ≤ 2 ^ 128 - 1 →
    ∃ t, runCommands (.init :: (pieces.map Instr.update ++ [.final])) s = .next t ∧
      t = { State.reset with
            fcode := s.fcode, pending := s.pending
            response := some ⟨statusWord .idle s.fcode .ok, some (hashOf pieces.flatten)⟩ }

/-- The empty message (R125, derived by the spec): with any number of empty UPDATEs between INIT and FINAL, one block of
zeros is compressed, with counter 0 and f0 all-ones, from the initial chaining state. -/
def Obligations.EmptyMessageIsOneZeroBlock : Prop :=
  ∀ (n : Nat) (s : State), s.phase ≠ .faulted →
    ∃ t, runCommands (.init :: (List.replicate n (Instr.update []) ++ [.final])) s = .next t ∧
      t.response = some ⟨statusWord .idle s.fcode .ok,
        some (digestOf (compress initialChaining (Vector.replicate 128 0) 0 0 (~~~ 0) 0))⟩

/-- Nothing of a message is left in the engine after FINAL or after a fault (R122, R145, R166): two states that differ
in everything a message can touch leave FINAL with equal states but for the response handed out, and leave with equal
states either fault a message in progress can meet: COUNTER_OVERFLOW, and ILLEGAL_COMMAND, each of the two met by an
illegal transaction of its own (R142; program P5). The port is the model's (log entries 1, 2). -/
def Obligations.NothingOfMessageIsLeft : Prop :=
  ∀ s₁ s₂ : State, s₁.phase = .absorbing → s₂.phase = .absorbing → s₁.fcode = s₂.fcode → s₁.pending = s₂.pending →
    (∃ t₁ t₂, exec .final s₁ = .next t₁ ∧ exec .final s₂ = .next t₂ ∧
      { t₁ with response := none } = { t₂ with response := none }) ∧
    (∀ data₁ data₂ : List Byte,
      s₁.ctx.t.toNat + s₁.ctx.buflen.val + data₁.length > 2 ^ 128 - 1 →
      s₂.ctx.t.toNat + s₂.ctx.buflen.val + data₂.length > 2 ^ 128 - 1 →
      ∃ t, exec (.update data₁) s₁ = .next t ∧ exec (.update data₂) s₂ = .next t) ∧
    (∀ (cw₁ cw₂ : CmdWord) (data₁ data₂ : List Byte) (rest : List HostEvent),
      (∃ e, decode cw₁ data₁ = .error e) → (∃ e, decode cw₂ data₂ = .error e) →
      ∃ t, step { s₁ with pending := .command cw₁ data₁ :: rest } = .next t ∧
        step { s₂ with pending := .command cw₂ data₂ :: rest } = .next t)

/-! ### Faults (60_exceptions.md, 10_state.md) -/

/-- R143: UPDATE and FINAL raise SEQUENCE in IDLE; INIT never reports it. -/
def Obligations.SequenceRaisedInIdle : Prop :=
  (∀ s : State, s.phase = .idle →
    (∀ data, exec (.update data) s = .next (faultedState 0x02 s.pending)) ∧
    exec .final s = .next (faultedState 0x02 s.pending)) ∧
  (∀ s : State, ∃ t resp, exec .init s = .next t ∧ t.response = some resp ∧ resp.status.extractLsb' 8 8 ≠ 0x02)

/-- R144: in ABSORBING, UPDATE raises COUNTER_OVERFLOW exactly when the message would not fit the 128-bit counter. -/
def Obligations.CounterOverflowRaisedPastBound : Prop :=
  ∀ (data : List Byte) (s : State), s.phase = .absorbing →
    (s.ctx.t.toNat + s.ctx.buflen.val + data.length > 2 ^ 128 - 1 →
      exec (.update data) s = .next (faultedState 0x03 s.pending)) ∧
    (s.ctx.t.toNat + s.ctx.buflen.val + data.length ≤ 2 ^ 128 - 1 →
      ∃ t resp, exec (.update data) s = .next t ∧ t.phase = .absorbing ∧ t.response = some resp ∧
        resp.status.extractLsb' 8 8 = 0x00)

/-- R145: whatever command moves the engine to FAULTED, it does exactly what fault entry says, with one of the three
codes, and nothing else. -/
def Obligations.FaultEntryWipesAndRecords : Prop :=
  ∀ s t : State, step s = .next t → s.phase ≠ .faulted → t.phase = .faulted →
    (t.fcode = 0x01 ∨ t.fcode = 0x02 ∨ t.fcode = 0x03) ∧ t = faultedState t.fcode s.pending.tail ∧
    (∀ j : Fin 8, t.ctx.h[j] = 0) ∧ t.ctx.t = 0 ∧ t.ctx.f0 = 0 ∧ t.ctx.f1 = 0 ∧
    (∀ j : Fin 128, t.ctx.buf[j] = 0) ∧ t.ctx.buflen = 0

/-- R146: in FAULTED every command, legal or not, changes nothing but the response, which is HALTED; the reset signal
leads out. That the port keeps the events after the reset is the model's choice (log entry 1). -/
def Obligations.FaultedRefusesEverythingButReset : Prop :=
  ∀ s : State, s.phase = .faulted →
    (∀ i : Instr, exec i s = .next (haltedState s)) ∧
    (∀ cw data rest, s.pending = .command cw data :: rest →
      step s = .next (haltedState { s with pending := rest })) ∧
    (∀ rest, s.pending = .reset :: rest → step s = .next { State.reset with pending := rest })

/-- However many steps are made, with no reset among the host's events, FAULTED stays, and the code of the first fault
with it (R146). -/
def Obligations.FaultedLastsUntilReset : Prop :=
  ∀ (k : Nat) (s : State), s.phase = .faulted → (∀ e ∈ s.pending, e ≠ .reset) →
    ∃ t, Host.Core.run core k s = .next t ∧ t.phase = .faulted ∧ t.fcode = s.fcode ∧ t.ctx = s.ctx ∧
      t.work = s.work ∧ t.pending = s.pending.drop k

/-- R147: the one result a command reports: HALTED before ILLEGAL_COMMAND before SEQUENCE before COUNTER_OVERFLOW
before OK. -/
def Obligations.ResultFollowsPriority : Prop :=
  ∀ (s : State) (cw : CmdWord) (data : List Byte) (rest : List HostEvent), s.pending = .command cw data :: rest →
    ∃ t resp, step s = .next t ∧ t.response = some resp ∧
      resp.status.extractLsb' 8 8 =
        if s.phase = .faulted then 0x04
        else if (decode cw data).toOption = none then 0x01
        else if s.phase = .idle ∧ decode cw data ≠ .ok .init then 0x02
        else if decode cw data = .ok (.update data) ∧
            s.ctx.t.toNat + s.ctx.buflen.val + data.length > 2 ^ 128 - 1 then 0x03
        else 0x00

/-- R30, R66: the response to every command: the fields of its status word are the phase and the fault code after the
command and zeros, and it carries a digest, of 64 bytes, exactly when the command was a FINAL that completed. -/
def Obligations.StatusWordReportsState : Prop :=
  ∀ (s : State) (cw : CmdWord) (data : List Byte) (rest : List HostEvent), s.pending = .command cw data :: rest →
    ∃ t resp, step s = .next t ∧ t.response = some resp ∧
      (resp.status.extractLsb' 0 2).toNat = (match t.phase with | .idle => 0 | .absorbing => 1 | .faulted => 2) ∧
      resp.status.extractLsb' 2 6 = 0 ∧ resp.status.extractLsb' 16 8 = t.fcode ∧ resp.status.extractLsb' 24 8 = 0 ∧
      resp.status.extractLsb' 8 8 ∈ [(0x00 : BitVec 8), 0x01, 0x02, 0x03, 0x04] ∧
      (resp.digest.isSome = true ↔ decode cw data = .ok .final ∧ resp.status.extractLsb' 8 8 = 0x00) ∧
      (∀ digest, resp.digest = some digest → digest.length = 64)

/-- Faults are precise (R148, derived by the spec): a command reports OK, or changes the state exactly as fault entry
or as HALTED says. -/
def Obligations.FaultsArePrecise : Prop :=
  ∀ (i : Instr) (s t : State), exec i s = .next t →
    (∃ resp, t.response = some resp ∧ resp.status.extractLsb' 8 8 = 0x00 ∧ t.phase ≠ .faulted ∧ t.fcode = s.fcode) ∨
    (s.phase ≠ .faulted ∧ (t = faultedState 0x02 s.pending ∨ t = faultedState 0x03 s.pending)) ∨
    (s.phase = .faulted ∧ t = haltedState s)

/-! ### Rules about the whole machine -/

/-- Every step answers: it ends in a next state, takes one event from the port, and leaves a response exactly when the
event was a command (R48, R60, R160, R168; the port is the model's, log entries 1, 2). -/
def Obligations.EveryStepAnswersOneEvent : Prop :=
  ∀ s : State, ∃ t, step s = .next t ∧ t.pending = s.pending.tail ∧
    (∀ cw data, s.pending.head? = some (.command cw data) → t.response.isSome = true) ∧
    (s.pending.head? = some .reset → t.response = none)

/-- What moves the lifecycle register and the fault register (R20, R28, R29): only an INIT enters ABSORBING, only FINAL
or reset enters IDLE, and fcode changes only by fault entry, to one of its codes, or by reset, to 0x00. -/
def Obligations.LifecycleMovesOnlyByRule : Prop :=
  ∀ s t : State, step s = .next t →
    (t.phase = .absorbing → s.phase = .absorbing ∨
      (s.phase = .idle ∧ s.pending.head? = some (.command 0x00000001 []))) ∧
    (t.phase = .idle → s.phase = .idle ∨ s.pending.head? = some .reset ∨
      (s.phase = .absorbing ∧ s.pending.head? = some (.command 0x00000003 []))) ∧
    (t.fcode ≠ s.fcode →
      (s.pending.head? = some .reset ∧ t.fcode = 0x00) ∨
      (s.phase ≠ .faulted ∧ t.phase = .faulted ∧ (t.fcode = 0x01 ∨ t.fcode = 0x02 ∨ t.fcode = 0x03)))

/-- The second finalization flag word stays zero: no step writes a non-zero value to it (R25, derived by the spec). -/
def Obligations.SecondFlagStaysZero : Prop :=
  ∀ s t : State, step s = .next t → t.ctx.f1 = s.ctx.f1 ∨ t.ctx.f1 = 0

/-- Engines are independent (R154): a step of one is that engine's own step, and no other engine is changed or looked
at. That a system is a list of engines is the model's choice (log entry 12). -/
def Obligations.EnginesAreIndependent : Prop :=
  ∀ (sys : System) (k : Nat), k < sys.engines.length →
    ∃ sys' s t, stepEngine k sys = .next sys' ∧ sys.engines[k]? = some s ∧ step s = .next t ∧
      sys'.engines[k]? = some t ∧ sys'.engines.length = sys.engines.length ∧
      ∀ j, j ≠ k → sys'.engines[j]? = sys.engines[j]?
end

