-- ==== Sys2Proof/Config.lean ====
section
/-! DEFINITION. What an implementation fixes and the spec leaves open. The spec leaves one thing open, the parameter
`BusBinding` (00_scope.md R8; 10_state.md R39; 92_eei_decisions.md OPEN-1). The constant tables, which R39 also calls
configuration, are in Sys2Proof/Machine/Tables.lean. -/

namespace Sys2Proof

/-- The open parameter `BusBinding` (R8, OPEN-1): how a sequence of bus transfers, each an address and a datum, comes
to be the host's sequence of commands, each a command word and a payload (R60). It has no body, so nothing can be
proved of it, and no rule reads it. Log entry 6. -/
opaque Config.busBinding : List (Nat × Nat) → List (CmdWord × List Byte)

end Sys2Proof
end

