-- ==== Sys2Proof/Laws/State.lean ====
section
/-! SUPPORT. What each field of the state and of the context is after each register write: one lemma a field and an
update, so that no proof unfolds a record update. -/

namespace Sys2Proof.Machine

/-! ### The fields of the state -/

@[simp] theorem State.withCtx_ctx (s : State) (c : Context) : (s.withCtx c).ctx = c := rfl
@[simp] theorem State.withCtx_work (s : State) (c : Context) : (s.withCtx c).work = s.work := rfl
@[simp] theorem State.withCtx_phase (s : State) (c : Context) : (s.withCtx c).phase = s.phase := rfl
@[simp] theorem State.withCtx_fcode (s : State) (c : Context) : (s.withCtx c).fcode = s.fcode := rfl
@[simp] theorem State.withCtx_pending (s : State) (c : Context) : (s.withCtx c).pending = s.pending := rfl
@[simp] theorem State.withCtx_response (s : State) (c : Context) : (s.withCtx c).response = s.response := rfl

@[simp] theorem State.withWork_ctx (s : State) (w : Transient) : (s.withWork w).ctx = s.ctx := rfl
@[simp] theorem State.withWork_work (s : State) (w : Transient) : (s.withWork w).work = w := rfl
@[simp] theorem State.withWork_phase (s : State) (w : Transient) : (s.withWork w).phase = s.phase := rfl
@[simp] theorem State.withWork_fcode (s : State) (w : Transient) : (s.withWork w).fcode = s.fcode := rfl
@[simp] theorem State.withWork_pending (s : State) (w : Transient) : (s.withWork w).pending = s.pending := rfl
@[simp] theorem State.withWork_response (s : State) (w : Transient) : (s.withWork w).response = s.response := rfl

@[simp] theorem State.withPhase_ctx (s : State) (p : Phase) : (s.withPhase p).ctx = s.ctx := rfl
@[simp] theorem State.withPhase_work (s : State) (p : Phase) : (s.withPhase p).work = s.work := rfl
@[simp] theorem State.withPhase_phase (s : State) (p : Phase) : (s.withPhase p).phase = p := rfl
@[simp] theorem State.withPhase_fcode (s : State) (p : Phase) : (s.withPhase p).fcode = s.fcode := rfl
@[simp] theorem State.withPhase_pending (s : State) (p : Phase) : (s.withPhase p).pending = s.pending := rfl
@[simp] theorem State.withPhase_response (s : State) (p : Phase) : (s.withPhase p).response = s.response := rfl

@[simp] theorem State.withFcode_ctx (s : State) (f : BitVec 8) : (s.withFcode f).ctx = s.ctx := rfl
@[simp] theorem State.withFcode_work (s : State) (f : BitVec 8) : (s.withFcode f).work = s.work := rfl
@[simp] theorem State.withFcode_phase (s : State) (f : BitVec 8) : (s.withFcode f).phase = s.phase := rfl
@[simp] theorem State.withFcode_fcode (s : State) (f : BitVec 8) : (s.withFcode f).fcode = f := rfl
@[simp] theorem State.withFcode_pending (s : State) (f : BitVec 8) : (s.withFcode f).pending = s.pending := rfl
@[simp] theorem State.withFcode_response (s : State) (f : BitVec 8) : (s.withFcode f).response = s.response := rfl

@[simp] theorem State.withPending_ctx (s : State) (es : List HostEvent) : (s.withPending es).ctx = s.ctx := rfl
@[simp] theorem State.withPending_work (s : State) (es : List HostEvent) : (s.withPending es).work = s.work := rfl
@[simp] theorem State.withPending_phase (s : State) (es : List HostEvent) : (s.withPending es).phase = s.phase := rfl
@[simp] theorem State.withPending_fcode (s : State) (es : List HostEvent) : (s.withPending es).fcode = s.fcode := rfl
@[simp] theorem State.withPending_pending (s : State) (es : List HostEvent) : (s.withPending es).pending = es := rfl
@[simp] theorem State.withPending_response (s : State) (es : List HostEvent) : (s.withPending es).response = s.response := rfl

@[simp] theorem State.withResponse_ctx (s : State) (r : Option Response) : (s.withResponse r).ctx = s.ctx := rfl
@[simp] theorem State.withResponse_work (s : State) (r : Option Response) : (s.withResponse r).work = s.work := rfl
@[simp] theorem State.withResponse_phase (s : State) (r : Option Response) : (s.withResponse r).phase = s.phase := rfl
@[simp] theorem State.withResponse_fcode (s : State) (r : Option Response) : (s.withResponse r).fcode = s.fcode := rfl
@[simp] theorem State.withResponse_pending (s : State) (r : Option Response) : (s.withResponse r).pending = s.pending := rfl
@[simp] theorem State.withResponse_response (s : State) (r : Option Response) : (s.withResponse r).response = r := rfl

/-! ### The fields of the context -/

@[simp] theorem Context.withH_h (c : Context) (h : Vector Word 8) : (c.withH h).h = h := rfl
@[simp] theorem Context.withH_t0 (c : Context) (h : Vector Word 8) : (c.withH h).t0 = c.t0 := rfl
@[simp] theorem Context.withH_t1 (c : Context) (h : Vector Word 8) : (c.withH h).t1 = c.t1 := rfl
@[simp] theorem Context.withH_f0 (c : Context) (h : Vector Word 8) : (c.withH h).f0 = c.f0 := rfl
@[simp] theorem Context.withH_f1 (c : Context) (h : Vector Word 8) : (c.withH h).f1 = c.f1 := rfl
@[simp] theorem Context.withH_buf (c : Context) (h : Vector Word 8) : (c.withH h).buf = c.buf := rfl
@[simp] theorem Context.withH_buflen (c : Context) (h : Vector Word 8) : (c.withH h).buflen = c.buflen := rfl

@[simp] theorem Context.withCounter_h (c : Context) (t0 t1 : Word) : (c.withCounter t0 t1).h = c.h := rfl
@[simp] theorem Context.withCounter_t0 (c : Context) (t0 t1 : Word) : (c.withCounter t0 t1).t0 = t0 := rfl
@[simp] theorem Context.withCounter_t1 (c : Context) (t0 t1 : Word) : (c.withCounter t0 t1).t1 = t1 := rfl
@[simp] theorem Context.withCounter_f0 (c : Context) (t0 t1 : Word) : (c.withCounter t0 t1).f0 = c.f0 := rfl
@[simp] theorem Context.withCounter_f1 (c : Context) (t0 t1 : Word) : (c.withCounter t0 t1).f1 = c.f1 := rfl
@[simp] theorem Context.withCounter_buf (c : Context) (t0 t1 : Word) : (c.withCounter t0 t1).buf = c.buf := rfl
@[simp] theorem Context.withCounter_buflen (c : Context) (t0 t1 : Word) : (c.withCounter t0 t1).buflen = c.buflen := rfl

@[simp] theorem Context.withF0_h (c : Context) (f0 : Word) : (c.withF0 f0).h = c.h := rfl
@[simp] theorem Context.withF0_t0 (c : Context) (f0 : Word) : (c.withF0 f0).t0 = c.t0 := rfl
@[simp] theorem Context.withF0_t1 (c : Context) (f0 : Word) : (c.withF0 f0).t1 = c.t1 := rfl
@[simp] theorem Context.withF0_f0 (c : Context) (f0 : Word) : (c.withF0 f0).f0 = f0 := rfl
@[simp] theorem Context.withF0_f1 (c : Context) (f0 : Word) : (c.withF0 f0).f1 = c.f1 := rfl
@[simp] theorem Context.withF0_buf (c : Context) (f0 : Word) : (c.withF0 f0).buf = c.buf := rfl
@[simp] theorem Context.withF0_buflen (c : Context) (f0 : Word) : (c.withF0 f0).buflen = c.buflen := rfl

@[simp] theorem Context.withBuf_h (c : Context) (b : Vector Byte 128) : (c.withBuf b).h = c.h := rfl
@[simp] theorem Context.withBuf_t0 (c : Context) (b : Vector Byte 128) : (c.withBuf b).t0 = c.t0 := rfl
@[simp] theorem Context.withBuf_t1 (c : Context) (b : Vector Byte 128) : (c.withBuf b).t1 = c.t1 := rfl
@[simp] theorem Context.withBuf_f0 (c : Context) (b : Vector Byte 128) : (c.withBuf b).f0 = c.f0 := rfl
@[simp] theorem Context.withBuf_f1 (c : Context) (b : Vector Byte 128) : (c.withBuf b).f1 = c.f1 := rfl
@[simp] theorem Context.withBuf_buf (c : Context) (b : Vector Byte 128) : (c.withBuf b).buf = b := rfl
@[simp] theorem Context.withBuf_buflen (c : Context) (b : Vector Byte 128) : (c.withBuf b).buflen = c.buflen := rfl

@[simp] theorem Context.withBuflen_h (c : Context) (n : Fin 129) : (c.withBuflen n).h = c.h := rfl
@[simp] theorem Context.withBuflen_t0 (c : Context) (n : Fin 129) : (c.withBuflen n).t0 = c.t0 := rfl
@[simp] theorem Context.withBuflen_t1 (c : Context) (n : Fin 129) : (c.withBuflen n).t1 = c.t1 := rfl
@[simp] theorem Context.withBuflen_f0 (c : Context) (n : Fin 129) : (c.withBuflen n).f0 = c.f0 := rfl
@[simp] theorem Context.withBuflen_f1 (c : Context) (n : Fin 129) : (c.withBuflen n).f1 = c.f1 := rfl
@[simp] theorem Context.withBuflen_buf (c : Context) (n : Fin 129) : (c.withBuflen n).buf = c.buf := rfl
@[simp] theorem Context.withBuflen_buflen (c : Context) (n : Fin 129) : (c.withBuflen n).buflen = n := rfl

end Sys2Proof.Machine
end

