-- ==== Sys2Proof/Laws/Ops.lean ====
section
/-! SUPPORT. What each shared operation does, said once: a proof about a command cites these and does not unfold the
operation. -/

namespace Sys2Proof.Machine

/-! ### The block buffer -/

/-- MemWrite, byte by byte: an offset from `a` on and below `a + |s|` holds the byte of `s` written to it, every other
one what it held. -/
theorem memWrite_getElem (buf : Vector Byte 128) (a : Nat) (s : List Byte) (j : Nat) (hj : j < 128) :
    (memWrite buf a s)[j] = if h : a ≤ j ∧ j < a + s.length then s[j - a] else buf[j] := by
  induction s generalizing buf a with
  | nil => simp [memWrite]
  | cons b rest ih =>
    simp only [memWrite, ih, Vector.getElem_setIfInBounds, List.length_cons]
    by_cases h1 : a + 1 ≤ j ∧ j < a + 1 + rest.length
    · have h2 : a ≤ j ∧ j < a + (rest.length + 1) := by omega
      have h3 : j - a = (j - (a + 1)) + 1 := by omega
      simp [h1, h2, h3]
    · rw [dif_neg h1]
      by_cases h2 : a = j
      · subst h2; simp
      · have h3 : ¬(a ≤ j ∧ j < a + (rest.length + 1)) := by omega
        rw [dif_neg h3, if_neg h2]

/-- MemRead gives `n` bytes where the buffer has them. -/
theorem memRead_length (buf : Vector Byte 128) (a n : Nat) (h : a + n ≤ 128) : (memRead buf a n).length = n := by
  simp [memRead]; omega

/-! ### The counter -/

/-- CounterAdd writes the two counter words and nothing else. -/
theorem counterAdd_frame (c : Context) (k : Nat) :
    (counterAdd c k).h = c.h ∧ (counterAdd c k).f0 = c.f0 ∧ (counterAdd c k).f1 = c.f1 ∧
    (counterAdd c k).buf = c.buf ∧ (counterAdd c k).buflen = c.buflen := ⟨rfl, rfl, rfl, rfl, rfl⟩

@[simp] theorem counterAdd_h (c : Context) (k : Nat) : (counterAdd c k).h = c.h := rfl
@[simp] theorem counterAdd_f0 (c : Context) (k : Nat) : (counterAdd c k).f0 = c.f0 := rfl
@[simp] theorem counterAdd_f1 (c : Context) (k : Nat) : (counterAdd c k).f1 = c.f1 := rfl
@[simp] theorem counterAdd_buf (c : Context) (k : Nat) : (counterAdd c k).buf = c.buf := rfl
@[simp] theorem counterAdd_buflen (c : Context) (k : Nat) : (counterAdd c k).buflen = c.buflen := rfl

/-! ### Compressing the buffer -/

/-- Compressing the buffer replaces h by COMPRESS's result and no other context register. -/
@[simp] theorem compressBuffer_ctx (s : State) :
    (compressBuffer s).ctx =
      s.ctx.withH (compress s.ctx.h s.ctx.buf s.ctx.t0 s.ctx.t1 s.ctx.f0 s.ctx.f1) := rfl
@[simp] theorem compressBuffer_phase (s : State) : (compressBuffer s).phase = s.phase := by
  simp [compressBuffer]
@[simp] theorem compressBuffer_fcode (s : State) : (compressBuffer s).fcode = s.fcode := by
  simp [compressBuffer]
@[simp] theorem compressBuffer_pending (s : State) : (compressBuffer s).pending = s.pending := by
  simp [compressBuffer]
@[simp] theorem compressBuffer_response (s : State) : (compressBuffer s).response = s.response := by
  simp [compressBuffer]

/-! ### Ends of a command -/

@[simp] theorem respond_ctx (r : ResultCode) (d : Option (List Byte)) (s : State) : (respond r d s).ctx = s.ctx := rfl
@[simp] theorem respond_work (r : ResultCode) (d : Option (List Byte)) (s : State) : (respond r d s).work = s.work := rfl
@[simp] theorem respond_phase (r : ResultCode) (d : Option (List Byte)) (s : State) :
    (respond r d s).phase = s.phase := rfl
@[simp] theorem respond_fcode (r : ResultCode) (d : Option (List Byte)) (s : State) :
    (respond r d s).fcode = s.fcode := rfl
@[simp] theorem respond_pending (r : ResultCode) (d : Option (List Byte)) (s : State) :
    (respond r d s).pending = s.pending := rfl
@[simp] theorem respond_response (r : ResultCode) (d : Option (List Byte)) (s : State) :
    (respond r d s).response = some ⟨statusWord s.phase s.fcode r, d⟩ := rfl

/-- Fault entry, whole: what it leaves depends on nothing of the state before but the host's queue. -/
theorem raiseFault_eq (code : FaultCode) (s : State) :
    raiseFault code s =
      { ctx := Context.zero, work := Transient.zero, phase := .faulted, fcode := faultCode code,
        pending := s.pending,
        response := some ⟨statusWord .faulted (faultCode code) (.fault code), none⟩ } := rfl

/-- HALTED, whole: the response is all that changes. -/
theorem answerHalted_eq (s : State) :
    answerHalted s = { s with response := some ⟨statusWord s.phase s.fcode .halted, none⟩ } := rfl

/-- The wipe, whole: the context and the transient state zero, the rest kept. -/
theorem wipe_eq (s : State) : wipe s = { s with ctx := Context.zero, work := Transient.zero } := rfl

/-- The reset signal, whole: the reset state with the host's queue. -/
theorem resetSignal_eq (s : State) : resetSignal s = { State.reset with pending := s.pending } := rfl

end Sys2Proof.Machine
end

