-- ==== Sys2Proof/Laws/PerInstr.lean ====
section
/-! SUPPORT. Statements about every instruction, one lemma a constructor (LAWS.json). -/

namespace Sys2Proof.Laws

/-- The encoder emits only transactions that no clause of R64 makes illegal. -/
def LegalEncoding.Statement (i : Instr) : Prop :=
  i.wellFormed = true → legalCommand (encode i).1 (encode i).2 = true

theorem LegalEncoding.init : LegalEncoding.Statement .init := fun _ => by decide

theorem LegalEncoding.update (data : List Byte) : LegalEncoding.Statement (.update data) := fun _ => by
  simp [legalCommand, encode, commandWord, opcode, opcodeDefined, reservedZero, payloadAllowed]

theorem LegalEncoding.final : LegalEncoding.Statement .final := fun _ => by decide

end Sys2Proof.Laws
end

