-- ==== Sys2Proof/Laws/Streaming.lean ====
section
/-! SUPPORT. The loop of UPDATE without its fuel, and what the three commands can answer. -/

namespace Sys2Proof.Machine

/-! ### What a pass leaves alone -/

/-- A filling pass writes h, the counter, buf and buflen of the context, the transient state, and nothing else. -/
theorem absorbBlock_ctx (s : State) (chunk : List Byte) :
    (absorbBlock s chunk).ctx =
      let c := counterAdd (s.ctx.withBuf (memWrite s.ctx.buf s.ctx.buflen chunk)) 128
      (c.withH (compress c.h c.buf c.t0 c.t1 c.f0 c.f1)).withBuflen 0 := rfl
@[simp] theorem absorbBlock_phase (s : State) (chunk : List Byte) : (absorbBlock s chunk).phase = s.phase := by
  simp [absorbBlock]
@[simp] theorem absorbBlock_fcode (s : State) (chunk : List Byte) : (absorbBlock s chunk).fcode = s.fcode := by
  simp [absorbBlock]
@[simp] theorem absorbBlock_pending (s : State) (chunk : List Byte) : (absorbBlock s chunk).pending = s.pending := by
  simp [absorbBlock]
@[simp] theorem absorbBlock_response (s : State) (chunk : List Byte) : (absorbBlock s chunk).response = s.response := by
  simp [absorbBlock]
@[simp] theorem absorbBlock_buflen (s : State) (chunk : List Byte) : (absorbBlock s chunk).ctx.buflen = 0 := by
  simp [absorbBlock]
@[simp] theorem absorbBlock_f0 (s : State) (chunk : List Byte) : (absorbBlock s chunk).ctx.f0 = s.ctx.f0 := by
  simp [absorbBlock]
@[simp] theorem absorbBlock_f1 (s : State) (chunk : List Byte) : (absorbBlock s chunk).ctx.f1 = s.ctx.f1 := by
  simp [absorbBlock]

/-! ### The loop -/

/-- With no payload left the loop ends. -/
@[simp] theorem absorbLoop_nil (fuel : Nat) (s : State) : absorbLoop fuel s [] = s := by
  cases fuel <;> simp [absorbLoop]

/-- The loop touches neither phase nor fcode nor the port, nor the finalization flags (R115). -/
theorem absorbLoop_frame (fuel : Nat) (s : State) (data : List Byte) :
    (absorbLoop fuel s data).phase = s.phase ∧ (absorbLoop fuel s data).fcode = s.fcode ∧
    (absorbLoop fuel s data).pending = s.pending ∧ (absorbLoop fuel s data).response = s.response ∧
    (absorbLoop fuel s data).ctx.f0 = s.ctx.f0 ∧ (absorbLoop fuel s data).ctx.f1 = s.ctx.f1 := by
  induction fuel generalizing s data with
  | zero => exact ⟨rfl, rfl, rfl, rfl, rfl, rfl⟩
  | succ fuel ih =>
    rw [absorbLoop]
    split
    · exact ⟨rfl, rfl, rfl, rfl, rfl, rfl⟩
    · dsimp only
      split
      · exact ⟨rfl, rfl, rfl, rfl, rfl, rfl⟩
      · exact ih _ _

/-- The passes the loop needs for a payload: a full buffer costs one pass that consumes nothing. -/
def passBound (s : State) (data : List Byte) : Nat :=
  data.length + if s.ctx.buflen.val = 128 then 1 else 0

/-- Fuel beyond the passes needed changes nothing, so the fuel `|data| + 1` of UPDATE is never what ends its loop. -/
theorem absorbLoop_fuel (f g : Nat) (s : State) (data : List Byte)
    (hf : passBound s data ≤ f) (hg : passBound s data ≤ g) : absorbLoop f s data = absorbLoop g s data := by
  induction f generalizing g s data with
  | zero =>
    have : data = [] := List.length_eq_zero_iff.mp (by unfold passBound at hf; omega)
    simp [this]
  | succ f ih =>
    cases g with
    | zero =>
      have : data = [] := List.length_eq_zero_iff.mp (by unfold passBound at hg; omega)
      simp [this]
    | succ g =>
      rw [absorbLoop, absorbLoop]
      split
      · rfl
      · dsimp only
        split
        · rfl
        · rename_i hne hfit
          have hb := s.ctx.buflen.isLt
          simp only [State.withWork_ctx] at hfit
          apply ih
          all_goals
            simp only [passBound, absorbBlock_buflen, List.length_drop, State.withWork_ctx, Fin.val_zero] at *
            split at hf <;> split at hg <;> simp <;> omega

/-- The loop on a payload that fits: one last pass (R115). -/
theorem absorbLoop_fits (fuel : Nat) (s : State) (data : List Byte) (hne : data ≠ [])
    (fits : data.length ≤ 128 - s.ctx.buflen.val) :
    absorbLoop (fuel + 1) s data =
      absorbTail (s.withWork { s.work with remaining := data.length }) data fits := by
  have : data.length ≠ 0 := by simpa using hne
  rw [absorbLoop, if_neg this]
  exact dif_pos fits

/-- The loop on a payload that exceeds the room in the buffer: a filling pass, then the rest (R115). -/
theorem absorbLoop_exceeds (fuel : Nat) (s : State) (data : List Byte)
    (exceeds : 128 - s.ctx.buflen.val < data.length) :
    absorbLoop (fuel + 1) s data =
      absorbLoop fuel
        (absorbBlock (s.withWork { s.work with remaining := data.length }) (data.take (128 - s.ctx.buflen.val)))
        (data.drop (128 - s.ctx.buflen.val)) := by
  have : data.length ≠ 0 := by omega
  rw [absorbLoop, if_neg this]
  exact dif_neg (by simpa using exceeds)

/-! ### What a command can answer -/

/-- INIT answers HALTED or starts a message. -/
theorem execInit_cases (s : State) :
    (s.phase = .faulted ∧ execInit s = .next (answerHalted s)) ∨
    (s.phase ≠ .faulted ∧
      execInit s =
        .next (respond .ok none ((s.withCtx (Context.zero.withH initialChaining)).withPhase .absorbing))) := by
  unfold execInit
  split
  · exact .inl ⟨‹_›, rfl⟩
  · exact .inr ⟨‹_›, rfl⟩

/-- UPDATE answers HALTED, raises SEQUENCE or COUNTER_OVERFLOW, or absorbs its payload. -/
theorem execUpdate_cases (data : List Byte) (s : State) :
    (s.phase = .faulted ∧ execUpdate data s = .next (answerHalted s)) ∨
    (s.phase = .idle ∧ execUpdate data s = .next (raiseFault .sequence s)) ∨
    (s.phase = .absorbing ∧ wouldOverflow s.ctx data.length = true ∧
      execUpdate data s = .next (raiseFault .counterOverflow s)) ∨
    (s.phase = .absorbing ∧ wouldOverflow s.ctx data.length = false ∧
      execUpdate data s =
        .next (respond .ok none ((absorbLoop (data.length + 1) s data).withWork Transient.zero))) := by
  unfold execUpdate
  cases hp : s.phase <;> cases ho : wouldOverflow s.ctx data.length <;> simp

/-- FINAL answers HALTED, raises SEQUENCE, or ends the message. -/
theorem execFinal_cases (s : State) :
    (s.phase = .faulted ∧ execFinal s = .next (answerHalted s)) ∨
    (s.phase = .idle ∧ execFinal s = .next (raiseFault .sequence s)) ∨
    (s.phase = .absorbing ∧
      execFinal s =
        .next (respond .ok (some (digestOf (compressBuffer (s.withCtx (finalContext s.ctx))).ctx.h))
          ((wipe (compressBuffer (s.withCtx (finalContext s.ctx)))).withPhase .idle))) := by
  unfold execFinal
  cases hp : s.phase <;> simp

/-- The padded context FINAL compresses: only the counter, f0 and buf differ from the context before. -/
theorem finalContext_frame (c : Context) :
    (finalContext c).h = c.h ∧ (finalContext c).f1 = c.f1 ∧ (finalContext c).buflen = c.buflen ∧
    (finalContext c).f0 = ~~~ 0 ∧ (finalContext c).t0 = (counterAdd c c.buflen).t0 ∧
    (finalContext c).t1 = (counterAdd c c.buflen).t1 := ⟨rfl, rfl, rfl, rfl, rfl, rfl⟩

/-! ### What a step can do -/

/-- One step, by the host's next event: nothing to do, a reset, an illegal command, or a command that decodes. -/
theorem step_cases (s : State) :
    (s.pending = [] ∧ step s = .next s) ∨
    (∃ rest, s.pending = .reset :: rest ∧ step s = .next (resetSignal (s.withPending rest))) ∨
    (∃ cw data rest e, s.pending = .command cw data :: rest ∧ decode cw data = .error e ∧
      step s = .next (illegalCommand (s.withPending rest))) ∨
    (∃ cw data rest i, s.pending = .command cw data :: rest ∧ decode cw data = .ok i ∧
      step s = exec i (s.withPending rest)) := by
  unfold step
  split
  · exact .inl ⟨‹_›, rfl⟩
  · exact .inr (.inl ⟨_, ‹_›, rfl⟩)
  · split
    · exact .inr (.inr (.inl ⟨_, _, _, _, ‹_›, ‹_›, rfl⟩))
    · exact .inr (.inr (.inr ⟨_, _, _, _, ‹_›, ‹_›, rfl⟩))

end Sys2Proof.Machine
end

