-- ==== Sys2Proof/Tests/Slice0.lean ====
section
/-! SUPPORT. Tests. Every expected value is the spec's: the vectors of 95_test_vectors.md, or the words of the rule
named. The second half shows, for each obligation with hypotheses, values that meet them, clause by clause. -/

namespace Sys2Proof.Tests

open Sys2Proof.Machine

/-! ### States and readings used below -/

/-- A state in ABSORBING with `n` pending zero bytes after `t` compressed ones (h is H0 whatever `t` is). -/
def absorbing (t : Nat) (n : Fin 129) : State :=
  { State.reset with
    ctx := { Context.zero with
      h := initialChaining, t0 := BitVec.ofNat 64 t, t1 := BitVec.ofNat 64 (t / 2 ^ 64), buflen := n }
    phase := .absorbing }

/-- The largest counter value a block boundary can have: 2^128 − 128 (95_test_vectors.md section 3.10). -/
def lastBlock : Nat := 2 ^ 128 - 128

/-- A state in FAULTED with the code 0x02 (95_test_vectors.md section 3.10). -/
def halted : State := faultedState 0x02 []

/-- `s` with one command at the port. -/
def given (s : State) (cw : CmdWord) (data : List Byte) : State := { s with pending := [.command cw data] }

/-- The 128 bytes 00, 01, ..., 7F. -/
def rampBlock : Vector Byte 128 := Vector.ofFn fun j => BitVec.ofNat 8 j.val

/-- What `f` reads from the state an outcome goes on with. -/
def reading {α : Type} (f : State → α) (o : Host.Outcome State Fault Refusal) : Option α :=
  match o with
  | .next t => some (f t)
  | .fault _ => none
  | .refused _ => none

/-- The status word a step answers with. -/
def status (s : State) : Option (BitVec 32) :=
  match step s with
  | .next t => t.response.map Response.status
  | .fault _ => none
  | .refused _ => none

/-! ### Well-formedness: an ill-formed transaction for each check (R64) -/

theorem test_opcodeDefined_refuses : opcodeDefined 0x00000000 = false ∧ opcodeDefined 0x00000004 = false := by decide
theorem test_reservedZero_refuses : reservedZero 0x00000102 = false ∧ reservedZero 0x80000003 = false := by decide
theorem test_payloadAllowed_refuses :
    payloadAllowed 0x00000001 [0x00] = false ∧ payloadAllowed 0x00000003 [0x00] = false := by decide
theorem test_legalCommand_refuses : legalCommand 0x000000FF [] = false ∧ legalCommand 0x00000002 [0x61] = true := by
  decide

/-! ### Decoding: words written out from R61 and R62, bits 31..8 and then 7..0; table of section 3.9 -/

theorem test_decode_init : decode (0b000000000000000000000000#24 ++ 0b00000001#8) [] = .ok .init := by decide
theorem test_decode_update :
    decode (0b000000000000000000000000#24 ++ 0b00000010#8) [0x61, 0x62, 0x63] = .ok (.update [0x61, 0x62, 0x63]) := by
  decide
theorem test_decode_final : decode (0b000000000000000000000000#24 ++ 0b00000011#8) [] = .ok .final := by decide
theorem test_decode_refuses_reserved :
    decode 0x00000102 [0x61] = .error .reservedBits ∧ decode 0x80000003 [] = .error .reservedBits := by decide
theorem test_decode_refuses_opcode :
    decode 0x00000000 [] = .error .undefinedOpcode ∧ decode 0x00000004 [] = .error .undefinedOpcode := by decide
theorem test_encode_update : encode (.update [0x61]) = (0x00000002, [0x61]) := by decide
theorem test_table_word_rows :
    decodeTableWord 32 1 = some .init ∧ decodeTableWord 32 2 = some (.update []) ∧
    decodeTableWord 32 3 = some .final := by decide
theorem test_table_word_payload : decodeTableWord 48 0x626100000002 = some (.update [0x61, 0x62]) := by decide

/-! ### Byte order (section 3.1) -/

theorem test_le64_read :
    le64 [0x61, 0x62, 0x63, 0, 0, 0, 0, 0] 0 = 0x0000000000636261 ∧
    le64 [0x40, 0x00, 0x01, 0x01, 0, 0, 0, 0] 0 = 0x0000000001010040 := by decide
theorem test_le64_write : le64bytes 0x0D4D1C983FA580BA = [0xBA, 0x80, 0xA5, 0x3F, 0x98, 0x1C, 0x4D, 0x0D] := by decide

/-! ### rotr64, G, ROUND, COMPRESS (sections 2, 3.2 to 3.5) -/

theorem test_rotr64 :
    rotr64 0x8000000000000001 24 = 0x0000018000000000 ∧ rotr64 0x8000000000000001 16 = 0x0001800000000000 := by decide

theorem test_mixG_mixed :
    mixG #v[0x0123456789ABCDEF, 0xFEDCBA9876543210, 0x0F0F0F0F0F0F0F0F, 0xF0F0F0F0F0F0F0F0] (0 : Fin 4) 1 2 3
      0x1111111111111111 0x2222222222222222 =
    #v[0xD7F613415F7DAAB8, 0x31118E139FB1B015, 0x3C4A2707E392AF8C, 0x4B593617F2A1BE9C] := by decide +kernel

theorem test_mixG_y_alone :
    mixG #v[0, 0, 0, 0] (0 : Fin 4) 1 2 3 0 1 =
    #v[0x0000000000000001, 0x0002000000000000, 0x0001000000000000, 0x0001000000000000] := by decide +kernel

/-- "abc" followed by 125 zero bytes. -/
def abcBlock : Vector Byte 128 := Vector.ofFn fun j => [0x61, 0x62, 0x63].getD j.val 0

/-- Round 0 of the compression of "abc" (section 2), G by G as the micro-step sequencer does it. -/
theorem test_round0 :
    (sequencerSteps 8 (sequencerLoad Transient.zero initialChaining abcBlock 3 0 (~~~ 0) 0)).v =
    #v[0x86B7C1568029BB79, 0xC12CBCC809FF59F3, 0xC6A5214CC0EACA8E, 0x0C87CD524C14CC5D,
       0x44EE6039BD86A9F7, 0xA447C850AA694A7E, 0xDE080F1BB1C0F84B, 0x595CB8A9A1ACA66C,
       0xBEC3AE837EAC4887, 0x6267FC79DF9D6AD1, 0xFA87B01273FA6DBE, 0x521A715C63E08D8A,
       0xE02D0975B8D37A83, 0x1C7B754F08B7D193, 0x8F885A76B6E578FE, 0x2318A24E2140FC64] := by decide +kernel

/-- Message selection in round 1 (section 3.4): G0 takes (m[14], m[10]), G7 (m[5], m[3]). -/
theorem test_selection_round1 :
    let m : Vector Word 16 := Vector.ofFn fun j => BitVec.ofNat 64 j.val
    wordX m 1 0 = 14 ∧ wordY m 1 0 = 10 ∧ wordX m 1 7 = 5 ∧ wordY m 1 7 = 3 := by decide

/-- Each row of SIGMA is a permutation, and rows 10 and 11 repeat rows 0 and 1 (R82). -/
theorem test_sigma_rows :
    (∀ r : Fin 12, ∀ k : Fin 16, ∃ j : Fin 16, SIGMA[r][j] = k) ∧ SIGMA[10] = SIGMA[0] ∧ SIGMA[11] = SIGMA[1] := by
  decide +kernel

/-- H0, the zero block, t = 2^64 (t0 = 0, t1 = 1): the high counter word enters (section 3.5). -/
theorem test_compress_high_counter :
    compress initialChaining (Vector.replicate 128 0) 0 1 0 0 =
    #v[0xF96013FC926706C6, 0xBCC002D1BA4CEB0E, 0x1337A4B623FE0E1A, 0xC499584BCF587693,
       0x3B894AF8DDF49B58, 0x4FDB078D2C3140D9, 0xA1452DB538A6FD07, 0xAF78D2E55E33DE82] := by decide +kernel

/-! ### The counter (section 3.6) -/

theorem test_counterAdd_carry :
    let c := counterAdd { Context.zero with t0 := 0xFFFFFFFFFFFFFF80 } 128
    c.t0 = 0 ∧ c.t1 = 1 := by decide
theorem test_counterAdd_largest :
    let c := counterAdd { Context.zero with t0 := 0xFFFFFFFFFFFFFF80, t1 := 0xFFFFFFFFFFFFFFFF } 127
    c.t0 = 0xFFFFFFFFFFFFFFFF ∧ c.t1 = 0xFFFFFFFFFFFFFFFF := by decide

/-! ### INIT, UPDATE, FINAL (sections 3.7 and 4) -/

/-- The parameter block's first word is 0x01010040 (R110), so `H0[0]` is IV[0] with it (R111); the other words are IV. -/
theorem test_parameter_block :
    le64 PB.toList 0 = 0x0000000001010040 ∧ ∀ j : Fin 8, j ≠ 0 → le64 PB.toList (8 * j.val) = 0 := by decide +kernel

/-- INIT in the middle of a message drops it: the context is that after INIT from reset (section 3.7). -/
theorem test_init_restarts :
    reading State.ctx (exec .init (absorbing 128 7)) = reading State.ctx (exec .init State.reset) ∧
    reading (fun t => t.ctx.h[0]) (exec .init (absorbing 128 7)) = some 0x6A09E667F2BDC948 := by decide +kernel

/-- P2: `UPDATE ramp(128)` after INIT fills the buffer and compresses nothing (lazy rule, R118). -/
theorem test_update_lazy :
    reading (fun t => (t.ctx.h == initialChaining, t.ctx.t0, t.ctx.buflen, t.ctx.buf == rampBlock))
      (exec (.update rampBlock.toList) (absorbing 0 0)) = some (true, 0, 128, true) := by decide +kernel

/-- P2: `UPDATE x"80"` with ramp(128) in the buffer compresses it with t = 128 and stores the byte; the bytes after it
are left over (R26). -/
theorem test_update_compresses :
    reading (fun t => (t.ctx.h, t.ctx.t0, t.ctx.buflen, t.ctx.buf[0], t.ctx.buf[1], t.ctx.buf[127]))
      (exec (.update [0x80]) { absorbing 0 128 with ctx := { (absorbing 0 128).ctx with buf := rampBlock } }) =
    some (#v[0xFFA0852A267EB85A, 0xEE3E4A8743C6C30B, 0x28A559F71459300A, 0x61B0EEAF429E7346,
             0x2F194672BCED790F, 0xBEF760BB734A4A5D, 0x37410E514215C327, 0xE96B7E8825D0F5A7],
          128, 1, 0x80, 0x01, 0x7F) := by decide +kernel

/-- P1: FINAL with "abc" in the buffer answers the digest S2 and wipes the context. -/
theorem test_final_abc :
    reading (fun t => (t.response, t.ctx == Context.zero, t.phase))
      (exec .final { absorbing 0 3 with ctx := { (absorbing 0 3).ctx with buf := abcBlock } }) =
    some (some ⟨0x00000000, some
      ([0xBA, 0x80, 0xA5, 0x3F, 0x98, 0x1C, 0x4D, 0x0D, 0x6A, 0x27, 0x97, 0xB6, 0x9F, 0x12, 0xF6, 0xE9] ++
       [0x4C, 0x21, 0x2F, 0x14, 0x68, 0x5A, 0xC4, 0xB7, 0x4B, 0x12, 0xBB, 0x6F, 0xDB, 0xFF, 0xA2, 0xD1] ++
       [0x7D, 0x87, 0xC5, 0x39, 0x2A, 0xAB, 0x79, 0x2D, 0xC2, 0x52, 0xD5, 0xDE, 0x45, 0x33, 0xCC, 0x95] ++
       [0x18, 0xD3, 0x8A, 0xA8, 0xDB, 0xF1, 0x92, 0x5A, 0xB9, 0x23, 0x86, 0xED, 0xD4, 0x00, 0x99, 0x23])⟩,
      true, .idle) := by decide +kernel

/-- FINAL pads before it compresses: what is left over in the buffer past `buflen` does not count (R120). -/
theorem test_final_pads :
    (finalContext { (absorbing 128 1).ctx with buf := rampBlock }).buf = Vector.replicate 128 0 ∧
    (finalContext { (absorbing 128 1).ctx with buf := rampBlock }).t0 = 129 := by decide +kernel

/-! ### Faults and status words (section 3.10) -/

theorem test_status_ok :
    status (given State.reset 0x00000001 []) = some 0x00000001 ∧
    status (given (absorbing 0 0) 0x00000002 [0x61, 0x62, 0x63]) = some 0x00000001 := by decide +kernel
theorem test_status_sequence :
    status (given State.reset 0x00000002 [0x61, 0x62, 0x63]) = some 0x00020202 ∧
    status (given State.reset 0x00000003 []) = some 0x00020202 := by decide +kernel
theorem test_status_illegal :
    status (given State.reset 0x00000007 []) = some 0x00010102 ∧
    status (given (absorbing 0 0) 0x00000102 [0x61]) = some 0x00010102 := by decide +kernel
theorem test_status_overflow :
    status (given (absorbing lastBlock 126) 0x00000002 [0x00]) = some 0x00000001 ∧
    status (given (absorbing lastBlock 127) 0x00000002 [0x00]) = some 0x00030302 ∧
    status (given (absorbing lastBlock 127) 0x00000002 []) = some 0x00000001 := by decide +kernel
theorem test_status_halted :
    status (given halted 0x00000001 []) = some 0x00020402 ∧
    status (given (faultedState 0x03 []) 0x00000000 []) = some 0x00030402 := by decide +kernel

/-- P5: the illegal command wipes the pending bytes and discards its payload; P4: reset answers nothing. -/
theorem test_fault_wipes :
    reading (fun t => (t.ctx == Context.zero, t.fcode, t.phase))
      (step (given (absorbing 0 2) 0x00000102 [0x63])) = some (true, 0x01, .faulted) ∧
    reading (fun t => (t == State.reset)) (step { halted with pending := [.reset] }) = some true := by decide +kernel

/-! ### Assembler (R70 to R72; section 4) -/

theorem test_readLine_update :
    readLine "        UPDATE \"abc\"    ; cw 00000002".toList = some (some (.update (.text ['a', 'b', 'c']))) := by
  decide +kernel
theorem test_readLine_word :
    readLine ".word 0x00000102 \"c\"".toList = some (some (.word 0x00000102 (some (.text ['c'])))) ∧
    readLine ".word 0x00000007".toList = some (some (.word 0x00000007 none)) := by decide +kernel
theorem test_readLine_operands :
    readLine "HASH ramp(128) ++ x\"80\" ++ zeros(2)".toList =
      some (some (.hash (.cat (.ramp 128) (.cat (.hex [8, 0]) (.zeros 2))))) := by decide +kernel
theorem test_readLine_refuses :
    readLine "UPDATE".toList = none ∧ readLine "INIT x\"00\"".toList = none ∧ readLine "  ; reset signal".toList = some none
    := by decide +kernel
/-- A semicolon between quotes is text, one after them begins the comment (log entry 11). -/
theorem test_readLine_quoted_semicolon :
    readLine "UPDATE \"a;b\" ; c".toList = some (some (.update (.text ['a', ';', 'b']))) := by decide +kernel
theorem test_assemble_hash :
    assembleLine (.hash (.text ['a', 'b', 'c'])) =
      some [(0x00000001, []), (0x00000002, [0x61, 0x62, 0x63]), (0x00000003, [])] := by decide +kernel
theorem test_operand_hex_pairs :
    operandBytes (.hex [6, 1, 15, 15]) = some [0x61, 0xFF] ∧ operandBytes (.hex [6]) = none := by decide

/-! ### Several engines (R154) -/

theorem test_other_engine_unchanged :
    (match stepEngine 0 ⟨[given State.reset 0x00000001 [], halted]⟩ with
      | .next sys => sys.engines[1]?
      | .fault _ => none
      | .refused _ => none) = some halted := by decide +kernel

/-! ### Witnesses: values that meet the hypotheses of each obligation, at the ends of their ranges -/

theorem witness_DecodeFollowsOpcodeMap :
    decode 0x00000001 [] = .ok .init ∧ decode 0x00000002 [0x00] = .ok (.update [0x00]) ∧
    decode 0x00000003 [] = .ok .final := by decide

theorem witness_EncodeDecodeAgree :
    Instr.init.wellFormed = true ∧ (Instr.update []).wellFormed = true ∧ Instr.final.wellFormed = true ∧
    decode 0x00000002 [0xFF] = .ok (.update [0xFF]) := by decide

/-- An illegal transaction for each clause of R64, at the ends of each range, met in IDLE and in ABSORBING. -/
theorem witness_IllegalTransactionsRaiseFault :
    (∀ p ∈ [((0x00000000 : CmdWord), ([] : List Byte)), (0x00000004, []), (0x000000FF, []), (0x00000101, []),
        (0x80000002, []), (0x00000001, [0x00]), (0x00000003, [0x00])],
      (decode p.1 p.2).toOption = none ∧ (given State.reset p.1 p.2).pending = [.command p.1 p.2] ∧
      (given State.reset p.1 p.2).phase ≠ .faulted ∧ (given (absorbing 0 1) p.1 p.2).phase ≠ .faulted) ∧
    decode 0x00000002 [] ≠ .error .undefinedOpcode := by decide +kernel

theorem witness_StepRunsDecodedCommand :
    (given halted 0x00000002 [0x61]).pending = .command 0x00000002 [0x61] :: [] ∧
    decode 0x00000002 [0x61] = .ok (.update [0x61]) := by decide

theorem witness_PlacedCommandRunsNext :
    decodeTableWord 32 0x00000001 = some .init ∧ decodeTableWord 40 0xFF00000002 = some (.update [0xFF]) ∧
    decodeTableWord 8 0x03 = some .final := by decide

/-- HASH of nothing and of one byte, with a reset waiting behind it. -/
theorem witness_HashPseudoInstructionDigest :
    State.reset.phase ≠ .faulted ∧ operandBytes (.zeros 0) = some [] ∧ operandBytes (.hex [6, 1]) = some [0x61] ∧
    assembleLine (.hash (.zeros 0)) = some [(0x00000001, []), (0x00000002, []), (0x00000003, [])] ∧
    assembleLine (.hash (.hex [6, 1])) = some [(0x00000001, []), (0x00000002, [0x61]), (0x00000003, [])] ∧
    { State.reset with pending := [.command 0x00000001 [], .command 0x00000002 [], .command 0x00000003 [], .reset] }.pending =
      [((0x00000001 : CmdWord), ([] : List Byte)), (0x00000002, []), (0x00000003, [])].map
        (fun p => HostEvent.command p.1 p.2) ++ [.reset] := by decide +kernel

theorem witness_AssemblerEmitsLegalCommands :
    assembleLine .init = some [(0x00000001, [])] ∧ assembleLine .final = some [(0x00000003, [])] ∧
    assembleLine (.update (.ramp 2)) = some [(0x00000002, [0x00, 0x01])] ∧
    assembleLine (.hash (.ramp 1)) = some [(0x00000001, []), (0x00000002, [0x00]), (0x00000003, [])] ∧
    operandBytes (.ramp 1) = some [0x00] ∧ operandBytes (.hex [6]) = none ∧
    (∀ cw op, AsmLine.hash (.ramp 1) ≠ .word cw op) := by
  refine ⟨by decide, by decide, by decide, by decide, by decide, by decide, ?_⟩
  intro cw op h
  cases h

/-- The ends of the range of text characters, the double quote inside it, hex digits of odd and even number, byte 255
and byte 256 of a ramp, and a concatenation. -/
theorem witness_OperandBytesByForm :
    operandBytes (.text [' ', '~']) = some [0x20, 0x7E] ∧ operandBytes (.text [Char.ofNat 0x1F]) = none ∧
    operandBytes (.text [Char.ofNat 0x7F]) = none ∧ operandBytes (.text [Char.ofNat 0x22]) = none ∧
    operandBytes (.hex [15]) = none ∧ operandBytes (.hex [15, 0]) = some [0xF0] ∧
    (operandBytes (.ramp 257)).map (fun bs => (bs.getD 255 0, bs.getD 256 1)) = some (0xFF, 0x00) ∧
    operandBytes (.cat (.zeros 1) (.ramp 2)) = some ([0x00] ++ [0x00, 0x01]) := by decide +kernel

theorem witness_ResetSignalResets : { halted with pending := [.reset] }.pending = .reset :: [] := by decide

theorem witness_StepWaitsForCommand : halted.pending = [] := by decide

/-- States that meet the invariant in each phase, and a step from one of them. -/
theorem witness_StepKeepsInvariant :
    (given State.reset 0x00000001 []).Inv ∧ (absorbing 128 1).Inv ∧
    reading State.phase (step (given State.reset 0x00000001 [])) = some .absorbing := by decide +kernel
theorem witness_StepKeepsInvariant_ends : (absorbing lastBlock 127).Inv ∧ halted.Inv := by decide +kernel

theorem witness_ReadWordLittleEndian :
    0 + 8 ≤ [(0x40 : Byte), 0, 1, 1, 0, 0, 0, 0].length ∧ 1 + 8 ≤ [(0x00 : Byte), 0x40, 0, 1, 1, 0, 0, 0, 0].length ∧
    le64 [0x00, 0x40, 0, 1, 1, 0, 0, 0, 0] 1 = 0x0000000001010040 ∧
    (le64 [0, 0, 0, 0, 0, 0, 0, 0xFF] 0).extractLsb' (8 * 7) 8 = 0xFF := by decide

theorem witness_WriteThenReadWord :
    (le64bytes 0x0D4D1C983FA580BA).getD 0 0 = 0xBA ∧ (le64bytes 0x0D4D1C983FA580BA).getD 7 0 = 0x0D := by decide

/-- The whole buffer, its last byte, and nothing at its end. -/
theorem witness_BufferReadAfterWrite :
    0 + rampBlock.toList.length ≤ 128 ∧ 127 + [(0x80 : Byte)].length ≤ 128 ∧ 128 + ([] : List Byte).length ≤ 128 ∧
    (memWrite rampBlock 127 [0x80])[126] = 0x7E ∧ (memWrite rampBlock 127 [0x80])[127] = 0x80 ∧
    (memWrite rampBlock 0 [0x80])[1] = 0x01 := by decide +kernel

theorem witness_CounterAddIsWideAddition :
    0 ≤ 128 ∧ 128 ≤ 128 ∧ (counterAdd { Context.zero with t0 := ~~~ 0, t1 := ~~~ 0 } 1).t = 0 ∧
    (counterAdd Context.zero 0).t = 0 := by decide

theorem witness_RotateRightBits :
    (0 < 1 ∧ 1 < 64) ∧ (0 < 63 ∧ 63 < 64) ∧ (rotr64 0x0000000000000001 1).getLsbD 63 = true ∧
    (rotr64 0x8000000000000000 63).getLsbD 0 = true := by decide

/-- The indices of G are distinct in every quadruple of a round, and one index is outside. -/
theorem witness_MixGWritesFourWords :
    [(0 : Fin 4), 1, 2, 3].Nodup ∧ [(0 : Fin 16), 4, 8, 12].Nodup ∧ [(3 : Fin 16), 4, 9, 14].Nodup ∧
    (15 : Fin 16) ∉ [(3 : Fin 16), 4, 9, 14] := by decide

theorem witness_OrderWithinStepIsFree :
    List.Perm [(3 : Fin 8), 1, 0, 2] [0, 1, 2, 3] ∧ List.Perm [(7 : Fin 8), 6, 5, 4] [4, 5, 6, 7] := by decide

/-- The sequencer's index after no G, after one, after a round, and after all twelve. -/
theorem witness_SequencerComputesCompress :
    let start := sequencerLoad Transient.zero initialChaining abcBlock 3 0 (~~~ 0) 0
    (sequencerSteps 0 start).i = 0 ∧ (sequencerSteps 1 start).i = 1 ∧ (sequencerSteps 8 start).r = 1 ∧
    (sequencerSteps 96 start).r = 0 := by decide +kernel

theorem witness_InitStartsMessage :
    halted.phase = .faulted ∧ State.reset.phase ≠ .faulted ∧ (absorbing 128 1).phase ≠ .faulted ∧
    [(0x00 : Byte)] ≠ [] := by decide

/-- Each clause: FAULTED, IDLE, one byte past the bound, the bound itself with a payload that just fits, and a payload
one byte longer than the room. -/
theorem witness_UpdateFollowsBlockLoop :
    halted.phase = .faulted ∧ State.reset.phase = .idle ∧
    (let s := absorbing lastBlock 127
     s.phase = .absorbing ∧ s.ctx.t.toNat + s.ctx.buflen.val + [(0 : Byte)].length > 2 ^ 128 - 1) ∧
    (let s := absorbing lastBlock 126
     s.phase = .absorbing ∧ s.ctx.t.toNat + s.ctx.buflen.val + [(0 : Byte)].length ≤ 2 ^ 128 - 1 ∧
     [(0 : Byte)].length ≤ 128 - s.ctx.buflen.val) ∧
    (let s := absorbing 0 0
     s.phase = .absorbing ∧ s.ctx.t.toNat + s.ctx.buflen.val + rampBlock.toList.length ≤ 2 ^ 128 - 1 ∧
     rampBlock.toList.length ≤ 128 - s.ctx.buflen.val) ∧
    (let s := absorbing 0 128
     s.phase = .absorbing ∧ s.ctx.t.toNat + s.ctx.buflen.val + [(0 : Byte)].length ≤ 2 ^ 128 - 1 ∧
     [(0 : Byte)].length > 128 - s.ctx.buflen.val) := by decide +kernel

/-- At the bound with no block compressed (k = 0), and at the first payload that compresses one (k = 1). -/
theorem witness_UpdateAbsorbsBlockStream :
    (let s := absorbing lastBlock 126
     s.phase = .absorbing ∧ s.ctx.t.toNat + s.ctx.buflen.val + [(0 : Byte)].length ≤ 2 ^ 128 - 1) ∧
    interiorBlocks (126 + 1) = 0 ∧ interiorBlocks 0 = 0 ∧ interiorBlocks (128 + 0) = 0 ∧
    (let s := absorbing 0 128
     s.phase = .absorbing ∧ s.ctx.t.toNat + s.ctx.buflen.val + [(0 : Byte)].length ≤ 2 ^ 128 - 1) ∧
    interiorBlocks (128 + 1) = 1 ∧ interiorBlocks 384 = 2 := by decide +kernel

theorem witness_UpdateEmptyChangesNothing :
    (absorbing 0 0).Inv ∧ (absorbing lastBlock 127).Inv ∧ (absorbing lastBlock 127).phase = .absorbing := by
  decide +kernel

/-- A first piece at the bound: the second may then be refused (one byte) or not (none). -/
theorem witness_UpdateSplitEqualsWhole :
    (absorbing lastBlock 126).phase = .absorbing ∧
    (absorbing lastBlock 126).ctx.t.toNat + (absorbing lastBlock 126).ctx.buflen.val + [(0 : Byte)].length ≤ 2 ^ 128 - 1 ∧
    reading State.phase (exec (.update [0, 0]) (absorbing lastBlock 126)) = some .faulted ∧
    reading State.phase (exec (.update [0]) (absorbing lastBlock 126)) = some .absorbing := by decide +kernel

theorem witness_FinalEndsMessage :
    halted.phase = .faulted ∧ State.reset.phase = .idle ∧ (absorbing 0 0).phase = .absorbing ∧
    (absorbing lastBlock 127).phase = .absorbing ∧ (absorbing 0 128).phase = .absorbing := by decide +kernel

theorem witness_FinalEndsMessage_inv : (absorbing 0 128).Inv ∧ (absorbing lastBlock 127).Inv := by decide +kernel

theorem witness_DigestOfPieces :
    State.reset.phase ≠ .faulted ∧ (absorbing 128 1).phase ≠ .faulted ∧
    [([] : List Byte), [0x61], [0x62, 0x63]].flatten.length ≤ 2 ^ 128 - 1 := by decide +kernel

theorem witness_EmptyMessageIsOneZeroBlock : State.reset.phase ≠ .faulted ∧ (absorbing 0 3).phase ≠ .faulted := by
  decide +kernel

/-- Two messages of different lengths, contents and counts, both one byte short of the bound. -/
theorem witness_NothingOfMessageIsLeft :
    (absorbing lastBlock 127).phase = .absorbing ∧ (absorbing (lastBlock - 128) 128).phase = .absorbing ∧
    (absorbing lastBlock 127).ctx ≠ (absorbing (lastBlock - 128) 128).ctx ∧
    (absorbing lastBlock 127).fcode = (absorbing (lastBlock - 128) 128).fcode ∧
    (absorbing lastBlock 127).pending = (absorbing (lastBlock - 128) 128).pending ∧
    (absorbing lastBlock 127).ctx.t.toNat + (absorbing lastBlock 127).ctx.buflen.val + [(0 : Byte)].length > 2 ^ 128 - 1 ∧
    (absorbing (lastBlock - 128) 128).ctx.t.toNat + (absorbing (lastBlock - 128) 128).ctx.buflen.val +
      rampBlock.toList.length > 2 ^ 128 - 1 ∧
    decode 0x00000102 [0x63] = .error .reservedBits ∧ decode 0x00000003 [0x00] = .error .payloadOnFinal := by
  decide +kernel

theorem witness_SequenceRaisedInIdle : State.reset.phase = .idle := by decide

theorem witness_CounterOverflowRaisedPastBound :
    (absorbing lastBlock 127).phase = .absorbing ∧
    (absorbing lastBlock 127).ctx.t.toNat + (absorbing lastBlock 127).ctx.buflen.val + [(0 : Byte)].length > 2 ^ 128 - 1 ∧
    (absorbing lastBlock 127).ctx.t.toNat + (absorbing lastBlock 127).ctx.buflen.val + ([] : List Byte).length ≤ 2 ^ 128 - 1
    := by decide +kernel

/-- A step into FAULTED for each of the three codes. -/
theorem witness_FaultEntryWipesAndRecords :
    State.reset.phase ≠ .faulted ∧ (absorbing lastBlock 127).phase ≠ .faulted ∧
    reading (fun t => (t.phase, t.fcode)) (step (given (absorbing 0 2) 0x00000102 [0x63])) = some (.faulted, 0x01) ∧
    reading (fun t => (t.phase, t.fcode)) (step (given State.reset 0x00000003 [])) = some (.faulted, 0x02) ∧
    reading (fun t => (t.phase, t.fcode)) (step (given (absorbing lastBlock 127) 0x00000002 [0])) = some (.faulted, 0x03)
    := by decide +kernel

theorem witness_FaultedRefusesEverythingButReset :
    halted.phase = .faulted ∧ (given halted 0x00000000 [0xFF]).pending = .command 0x00000000 [0xFF] :: [] ∧
    (given halted 0x00000000 [0xFF]).phase = .faulted ∧ { halted with pending := [.reset] }.phase = .faulted := by
  decide +kernel

theorem witness_FaultedLastsUntilReset :
    (given halted 0x00000001 []).phase = .faulted ∧ ∀ e ∈ (given halted 0x00000001 []).pending, e ≠ .reset := by
  decide +kernel

/-- One command for each line of the priority. -/
theorem witness_ResultFollowsPriority :
    status (given halted 0x00000004 []) = some 0x00020402 ∧ status (given State.reset 0x00000004 []) = some 0x00010102 ∧
    status (given State.reset 0x00000003 []) = some 0x00020202 ∧
    status (given (absorbing lastBlock 127) 0x00000002 [0]) = some 0x00030302 ∧
    status (given State.reset 0x00000001 []) = some 0x00000001 ∧
    (given State.reset 0x00000001 []).pending = .command 0x00000001 [] :: [] := by decide +kernel

theorem witness_StatusWordReportsState :
    (given (absorbing 0 0) 0x00000003 []).pending = .command 0x00000003 [] :: [] ∧
    (given halted 0x00000003 []).pending = .command 0x00000003 [] :: [] ∧ decode 0x00000003 [] = .ok .final := by
  decide +kernel

/-- An instruction that completes, one that raises each fault exec can raise, and one answered HALTED. -/
theorem witness_FaultsArePrecise :
    reading State.phase (exec .init State.reset) = some .absorbing ∧
    reading State.fcode (exec .final State.reset) = some 0x02 ∧
    reading State.fcode (exec (.update [0]) (absorbing lastBlock 127)) = some 0x03 ∧
    reading State.fcode (exec .init halted) = some 0x02 ∧ halted.phase = .faulted := by decide +kernel

theorem witness_EveryStepAnswersOneEvent :
    (given State.reset 0x00000001 []).pending.head? = some (.command 0x00000001 []) ∧
    { halted with pending := [.reset] }.pending.head? = some .reset := by decide +kernel

/-- Into ABSORBING by INIT, into IDLE by reset, and the fault register set and cleared (into IDLE by FINAL is
test_final_abc). -/
theorem witness_LifecycleMovesOnlyByRule :
    reading State.phase (step (given State.reset 0x00000001 [])) = some .absorbing ∧
    reading (fun t => (t.phase, t.fcode)) (step { halted with pending := [.reset] }) = some (.idle, 0x00) ∧
    reading (fun t => (t.phase, t.fcode)) (step (given State.reset 0x00000002 [])) = some (.faulted, 0x02) := by
  decide +kernel

/-- A step that keeps `f1`, and one that zeroes an `f1` no run gives. -/
theorem witness_SecondFlagStaysZero :
    reading (fun t => t.ctx.f1) (step (given (absorbing 0 0) 0x00000002 [0x61])) = some 0 ∧
    reading (fun t => t.ctx.f1)
      (step (given { State.reset with ctx := { Context.zero with f1 := ~~~ 0 } } 0x00000001 [])) = some 0 := by
  decide +kernel

theorem witness_EnginesAreIndependent :
    0 < (System.mk [State.reset, halted]).engines.length ∧ 1 < (System.mk [State.reset, halted]).engines.length ∧
    (System.mk [State.reset, halted]).engines[1]? = some halted := by decide +kernel

end Sys2Proof.Tests
end

section
/-! SUPPORT. The response to a command (10_state.md R30; 30_encoding.md R66). Every command leaves its state by
`respond`, so the fields of its status word are read off `statusWord`, and its digest off the few ways in which a command
ends: fault entry, HALTED, OK with no digest, and a completed FINAL. -/

namespace Sys2Proof.Machine

/-! ### The fields of the status word (R30) -/

/-- The status word bit by bit: the phase from bit 0 on, the result from bit 8 on, fcode from bit 16 on, and zeros past
the width of each (R30). -/
theorem getLsbD_statusWord (p : Phase) (f : BitVec 8) (r : ResultCode) (i : Nat) :
    (statusWord p f r).getLsbD i =
      if i < 8 then (phaseCode p).getLsbD i
      else if i < 16 then (resultCode r).getLsbD (i - 8)
      else f.getLsbD (i - 16) := by
  have hp : 2 ≤ i → (phaseCode p).getLsbD i = false := BitVec.getLsbD_of_ge _ _
  have hr : 8 ≤ i - 8 → (resultCode r).getLsbD (i - 8) = false := BitVec.getLsbD_of_ge _ _
  have hf : 8 ≤ i - 16 → f.getLsbD (i - 16) = false := BitVec.getLsbD_of_ge _ _
  simp only [statusWord, BitVec.getLsbD_or, BitVec.getLsbD_shiftLeft, BitVec.getLsbD_setWidth]
  grind

theorem statusWord_phase_field (p : Phase) (f : BitVec 8) (r : ResultCode) :
    (statusWord p f r).extractLsb' 0 2 = phaseCode p := by
  refine BitVec.eq_of_getLsbD_eq fun i hi => ?_
  have : i < 8 := by omega
  simp [getLsbD_statusWord, *]

theorem statusWord_bits_7_2 (p : Phase) (f : BitVec 8) (r : ResultCode) :
    (statusWord p f r).extractLsb' 2 6 = 0 := by
  refine BitVec.eq_of_getLsbD_eq fun i hi => ?_
  have : 2 + i < 8 := by omega
  simp [getLsbD_statusWord, *]

theorem statusWord_result_field (p : Phase) (f : BitVec 8) (r : ResultCode) :
    (statusWord p f r).extractLsb' 8 8 = resultCode r := by
  refine BitVec.eq_of_getLsbD_eq fun i hi => ?_
  have : 8 + i < 16 := by omega
  simp [getLsbD_statusWord, *]

theorem statusWord_fcode_field (p : Phase) (f : BitVec 8) (r : ResultCode) :
    (statusWord p f r).extractLsb' 16 8 = f := by
  refine BitVec.eq_of_getLsbD_eq fun i hi => ?_
  have : ¬ 16 + i < 8 := by omega
  simp [getLsbD_statusWord, *]

theorem statusWord_bits_31_24 (p : Phase) (f : BitVec 8) (r : ResultCode) :
    (statusWord p f r).extractLsb' 24 8 = 0 := by
  refine BitVec.eq_of_getLsbD_eq fun i hi => ?_
  have h8 : ¬ 24 + i < 8 := by omega
  have h16 : ¬ 24 + i < 16 := by omega
  have past : 8 ≤ 24 + i - 16 := by omega
  simp [getLsbD_statusWord, *]

/-! ### The result codes (R141) -/

theorem resultCode_mem (r : ResultCode) : resultCode r ∈ [(0x00 : BitVec 8), 0x01, 0x02, 0x03, 0x04] := by
  cases r with
  | ok => decide
  | fault code => cases code <;> decide
  | halted => decide

theorem resultCode_eq_zero_iff (r : ResultCode) : resultCode r = 0x00 ↔ r = .ok := by
  cases r with
  | ok => decide
  | fault code => cases code <;> decide
  | halted => decide

/-! ### The digest (R121) -/

theorem le64bytes_length (w : Word) : (le64bytes w).length = 8 := rfl

/-- The digest of eight words has 64 bytes (R121). -/
theorem digestOf_length (h : Vector Word 8) : (digestOf h).length = 64 := by
  simp [digestOf, List.length_flatMap, le64bytes_length]

/-! ### How a command ends -/

/-- The step whose next event is a command: its transaction is answered as illegal, or the command it decodes to is
executed, in the state in which the event has been taken (R65, R142). -/
theorem step_command_cases {s : State} {cw : CmdWord} {data : List Byte} {rest : List HostEvent}
    (hs : s.pending = .command cw data :: rest) :
    (∃ e, decode cw data = .error e ∧ step s = .next (illegalCommand (s.withPending rest))) ∨
    (∃ i, decode cw data = .ok i ∧ step s = exec i (s.withPending rest)) := by
  obtain ⟨h, -⟩ | ⟨_, h, -⟩ | ⟨_, _, _, e, h, hd, ht⟩ | ⟨_, _, _, i, h, hd, ht⟩ := step_cases s <;> rw [hs] at h <;>
    cases h
  · exact .inl ⟨e, hd, ht⟩
  · exact .inr ⟨i, hd, ht⟩

/-- `t` is left by responding, with a digest, of 64 bytes, exactly when the result is OK and `final` holds, the
proposition that the command was a FINAL (R66). -/
def Responds (final : Prop) (t : State) : Prop :=
  ∃ (r : ResultCode) (d : Option (List Byte)) (u : State), t = respond r d u ∧
    (d.isSome = true ↔ final ∧ r = .ok) ∧ ∀ digest, d = some digest → digest.length = 64

theorem responds_answerHalted (final : Prop) (s : State) : Responds final (answerHalted s) :=
  ⟨.halted, none, s, rfl, by simp, by simp⟩

theorem responds_raiseFault (final : Prop) (code : FaultCode) (s : State) : Responds final (raiseFault code s) :=
  ⟨.fault code, none, _, rfl, by simp, by simp⟩

theorem responds_ok_none {final : Prop} (h : ¬ final) (s : State) : Responds final (respond .ok none s) :=
  ⟨.ok, none, s, rfl, by simp [h], by simp⟩

theorem responds_ok_digest {final : Prop} (hf : final) (h : Vector Word 8) (s : State) :
    Responds final (respond .ok (some (digestOf h)) s) :=
  ⟨.ok, some (digestOf h), s, rfl, by simp [hf], by simp [digestOf_length]⟩

theorem responds_illegalCommand (final : Prop) (s : State) : Responds final (illegalCommand s) := by
  unfold illegalCommand
  split
  · exact responds_answerHalted final s
  · exact responds_raiseFault final _ s

/-- Every command ends in a next state by responding, with a digest only for a FINAL (R66, R120). -/
theorem exec_responds (i : Instr) (s : State) : ∃ t, exec i s = .next t ∧ Responds (i = .final) t := by
  cases i with
  | init =>
    obtain ⟨-, h⟩ | ⟨-, h⟩ := execInit_cases s
    · exact ⟨_, h, responds_answerHalted _ s⟩
    · exact ⟨_, h, responds_ok_none (by simp) _⟩
  | update data =>
    obtain ⟨-, h⟩ | ⟨-, h⟩ | ⟨-, -, h⟩ | ⟨-, -, h⟩ := execUpdate_cases data s
    · exact ⟨_, h, responds_answerHalted _ s⟩
    · exact ⟨_, h, responds_raiseFault _ _ s⟩
    · exact ⟨_, h, responds_raiseFault _ _ s⟩
    · exact ⟨_, h, responds_ok_none (by simp) _⟩
  | final =>
    obtain ⟨-, h⟩ | ⟨-, h⟩ | ⟨-, h⟩ := execFinal_cases s
    · exact ⟨_, h, responds_answerHalted _ s⟩
    · exact ⟨_, h, responds_raiseFault _ _ s⟩
    · exact ⟨_, h, responds_ok_digest rfl _ _⟩

/-- So does every step whose next event is a command, legal or not. -/
theorem step_command_responds {s : State} {cw : CmdWord} {data : List Byte} {rest : List HostEvent}
    (hs : s.pending = .command cw data :: rest) :
    ∃ t, step s = .next t ∧ Responds (decode cw data = .ok .final) t := by
  obtain ⟨e, -, h⟩ | ⟨i, hd, h⟩ := step_command_cases hs
  · exact ⟨_, h, responds_illegalCommand _ _⟩
  · rw [h, hd, Except.ok.injEq]
    exact exec_responds i _

/-- Settles O39: a command leaves its state by responding, so the fields of the response are those of `statusWord`. -/
theorem statusWordReportsState : Obligations.StatusWordReportsState := by
  unfold Obligations.StatusWordReportsState
  intro s cw data rest hs
  obtain ⟨t, ht, r, d, u, rfl, hsome, hlen⟩ := step_command_responds hs
  refine ⟨_, _, ht, respond_response r d u, ?_, statusWord_bits_7_2 .., statusWord_fcode_field ..,
    statusWord_bits_31_24 .., ?_, ?_, hlen⟩
  · rw [statusWord_phase_field, respond_phase]
    cases u.phase <;> rfl
  · rw [statusWord_result_field]
    exact resultCode_mem r
  · rw [statusWord_result_field, resultCode_eq_zero_iff]
    exact hsome

end Sys2Proof.Machine
end

section
/-! SUPPORT. Byte order (20_memory.md R40 to R42). A word that `le64` reads is taken apart into its bytes once, as a sum
and as bit fields; the block, the parameter block and the digest then only have to say which byte stands where. -/

namespace Sys2Proof.Machine

/-! ### The word read by `le64` (R41) -/

theorem toNat_append_eq_add {m n : Nat} (x : BitVec m) (y : BitVec n) :
    (x ++ y).toNat = x.toNat * 2 ^ n + y.toNat := by
  rw [BitVec.toNat_append, ← Nat.shiftLeft_add_eq_or_of_lt y.isLt, Nat.shiftLeft_eq]

/-- The word is the sum of its bytes, byte `k` weighted by `2 ^ (8 * k)`; past the end of `s` a byte counts as zero. -/
theorem toNat_le64 (s : List Byte) (o : Nat) :
    (le64 s o).toNat =
      (s.getD o 0).toNat + (s.getD (o + 1) 0).toNat * 2 ^ 8 + (s.getD (o + 2) 0).toNat * 2 ^ 16 +
      (s.getD (o + 3) 0).toNat * 2 ^ 24 + (s.getD (o + 4) 0).toNat * 2 ^ 32 + (s.getD (o + 5) 0).toNat * 2 ^ 40 +
      (s.getD (o + 6) 0).toNat * 2 ^ 48 + (s.getD (o + 7) 0).toNat * 2 ^ 56 := by
  simp only [le64, toNat_append_eq_add]
  ring

/-- Byte `k` of the group is bits [8k+7:8k] of the word (R40): dividing the sum by `2 ^ (8 * k)` drops the bytes below,
and each byte is less than `2 ^ 8`, so the remainder is byte `k`. -/
theorem extractLsb'_le64 (s : List Byte) (o : Nat) {k : Nat} (hk : k < 8) :
    (le64 s o).extractLsb' (8 * k) 8 = s.getD (o + k) 0 := by
  apply BitVec.eq_of_toNat_eq
  rw [BitVec.extractLsb'_toNat, Nat.shiftRight_eq_div_pow, toNat_le64]
  interval_cases k <;> simp only [Nat.reduceMul, Nat.add_zero] <;> omega

theorem extractLsb'_le64_toList {n : Nat} (v : Vector Byte n) (o : Nat) {k : Nat} (hk : k < 8) (h : o + k < n) :
    (le64 v.toList o).extractLsb' (8 * k) 8 = v[o + k] := by
  rw [extractLsb'_le64 _ _ hk, List.getD_eq_getElem _ _ (by simpa using h), Vector.getElem_toList]

/-! ### The words of a block, and the bytes of a digest (R90, R121) -/

theorem getElem_messageWords (block : Vector Byte 128) (i : Fin 16) :
    (messageWords block)[i] = le64 block.toList (8 * i.val) := by
  simp [messageWords]

theorem getD_le64bytes (w : Word) {k : Nat} (hk : k < 8) : (le64bytes w).getD k 0 = w.extractLsb' (8 * k) 8 := by
  interval_cases k <;> rfl

/-- Words serialised one after another: byte `k` of word `j` stands at `8 * j + k`. -/
theorem getD_flatMap_le64bytes (ws : List Word) (j : Nat) {k : Nat} (hj : j < ws.length) (hk : k < 8) :
    (ws.flatMap le64bytes).getD (8 * j + k) 0 = ws[j].extractLsb' (8 * k) 8 := by
  induction ws generalizing j with
  | nil => simp at hj
  | cons w ws ih =>
    rw [List.flatMap_cons]
    cases j with
    | zero =>
      rw [List.getD_append _ _ _ _ (by simpa [le64bytes_length] using hk), Nat.mul_zero, Nat.zero_add]
      exact getD_le64bytes w hk
    | succ j =>
      rw [List.getD_append_right _ _ _ _ (by simp only [le64bytes_length]; omega), le64bytes_length,
        show 8 * (j + 1) + k - 8 = 8 * j + k by omega]
      exact ih j (by simpa using hj)

theorem getD_digestOf (h : Vector Word 8) (j k : Fin 8) :
    (digestOf h).getD (8 * j.val + k.val) 0 = h[j].extractLsb' (8 * k.val) 8 := by
  simpa [digestOf] using getD_flatMap_le64bytes h.toList j.val (by simp) k.isLt

/-- Settles O16: the sum and the bit fields of `le64`. -/
theorem readWordLittleEndian : Obligations.ReadWordLittleEndian := by
  unfold Obligations.ReadWordLittleEndian
  exact ⟨fun s o _ => ⟨toNat_le64 s o, fun _ hk => extractLsb'_le64 s o hk⟩, by decide⟩

/-- Settles O15: the bit fields of `le64`, read in the block and in the parameter block, and the place of each byte in
the digest. -/
theorem conversionsAreLittleEndian : Obligations.ConversionsAreLittleEndian := by
  unfold Obligations.ConversionsAreLittleEndian
  refine ⟨getElem_messageWords, fun block i k => ?_, fun j k => ?_, getD_digestOf⟩
  · rw [getElem_messageWords]
    exact extractLsb'_le64_toList block _ k.isLt _
  · exact extractLsb'_le64_toList PB _ k.isLt _

end Sys2Proof.Machine
end

section
/-! SUPPORT. The decoder and the encoder (30_encoding.md R61 to R65). A transaction decodes to an instruction exactly
when it is the one that instruction is sent as, and those transactions are the legal ones of R64: what the decoder reads
and what it refuses are derived from these two facts. -/

namespace Sys2Proof

/-! ### The fields of the command word (R61) -/

/-- RSVD and OP are the whole of the command word (R61). -/
theorem rsvdField_append_opField (cw : CmdWord) : rsvdField cw ++ opField cw = cw :=
  BitVec.extractLsb'_append_extractLsb'

@[simp] theorem opField_commandWord (i : Instr) : opField (commandWord i) = opcode i :=
  BitVec.extractLsb'_append_eq_right

@[simp] theorem rsvdField_commandWord (i : Instr) : rsvdField (commandWord i) = 0 :=
  BitVec.extractLsb'_append_eq_left

/-- A transaction is the one `i` is sent as where the two fields of its word and its payload are those of `i`. -/
theorem encode_eq_of_fields {cw : CmdWord} {data : List Byte} (i : Instr) (hr : rsvdField cw = 0)
    (ho : opField cw = opcode i) (hp : payload i = data) : encode i = (cw, data) := by
  rw [encode, commandWord, ← ho, ← hr, rsvdField_append_opField, hp]

/-! ### Decoding is the inverse of encoding (R62, R65) -/

theorem decode_encode (i : Instr) : decode (encode i).1 (encode i).2 = .ok i := by
  cases i <;> simp [decode, encode, opcode, payload]

theorem encode_of_decode_eq_ok {cw : CmdWord} {data : List Byte} {i : Instr} (h : decode cw data = .ok i) :
    encode i = (cw, data) := by
  unfold decode at h
  split_ifs at h with hr h1 he h2 h3 he <;> cases h
  · exact encode_eq_of_fields .init (not_not.mp hr) h1 (List.isEmpty_iff.mp he).symm
  · exact encode_eq_of_fields (.update data) (not_not.mp hr) h2 rfl
  · exact encode_eq_of_fields .final (not_not.mp hr) h3 (List.isEmpty_iff.mp he).symm

theorem decode_eq_ok_iff {cw : CmdWord} {data : List Byte} {i : Instr} :
    decode cw data = .ok i ↔ encode i = (cw, data) := by
  refine ⟨encode_of_decode_eq_ok, fun h => ?_⟩
  simpa only [h] using decode_encode i

/-! ### The legal transactions (R64) -/

theorem legalCommand_encode (i : Instr) : legalCommand (encode i).1 (encode i).2 = true := by
  cases i with
  | init => exact Laws.LegalEncoding.init rfl
  | update data => exact Laws.LegalEncoding.update data rfl
  | final => exact Laws.LegalEncoding.final rfl

/-- The three clauses of R64, each negated. -/
theorem legalCommand_eq_true_iff (cw : CmdWord) (data : List Byte) :
    legalCommand cw data = true ↔
      (opField cw = 0x01 ∨ opField cw = 0x02 ∨ opField cw = 0x03) ∧ rsvdField cw = 0 ∧
      (opField cw = 0x01 ∨ opField cw = 0x03 → data = []) := by
  simp [legalCommand, opcodeDefined, reservedZero, payloadAllowed, opField, rsvdField, or_assoc, and_assoc,
    imp_iff_not_or]

theorem exists_encode_eq_iff (cw : CmdWord) (data : List Byte) :
    (∃ i, encode i = (cw, data)) ↔ legalCommand cw data = true := by
  constructor
  · rintro ⟨i, h⟩
    simpa only [h] using legalCommand_encode i
  · rw [legalCommand_eq_true_iff]
    rintro ⟨h1 | h2 | h3, hr, hp⟩
    · exact ⟨.init, encode_eq_of_fields .init hr h1 (hp (.inl h1)).symm⟩
    · exact ⟨.update data, encode_eq_of_fields (.update data) hr h2 rfl⟩
    · exact ⟨.final, encode_eq_of_fields .final hr h3 (hp (.inr h3)).symm⟩

/-- The opcodes that R64 names by their numbers are those other than the three of R62. -/
theorem opField_undefined_iff (cw : CmdWord) :
    ((opField cw).toNat = 0x00 ∨ (0x04 ≤ (opField cw).toNat ∧ (opField cw).toNat ≤ 0xFF)) ↔
      ¬ (opField cw = 0x01 ∨ opField cw = 0x02 ∨ opField cw = 0x03) := by
  have := (opField cw).isLt
  simp only [← BitVec.toNat_inj, BitVec.reduceToNat]
  omega

/-- The decoder refuses the transactions that a clause of R64 makes illegal, and no other. -/
theorem decode_refuses_iff (cw : CmdWord) (data : List Byte) :
    (∃ e, decode cw data = .error e) ↔ ¬ legalCommand cw data = true := by
  rw [← exists_encode_eq_iff]
  simp only [← decode_eq_ok_iff]
  cases decode cw data <;> simp

/-- What the decoder refuses, in the words of R64. -/
theorem decode_refuses_iff_clause (cw : CmdWord) (data : List Byte) :
    (∃ e, decode cw data = .error e) ↔
      ((opField cw).toNat = 0x00 ∨ (0x04 ≤ (opField cw).toNat ∧ (opField cw).toNat ≤ 0xFF)) ∨ rsvdField cw ≠ 0 ∨
      (((opField cw).toNat = 0x01 ∨ (opField cw).toNat = 0x03) ∧ data ≠ []) := by
  have h1 : (opField cw).toNat = 0x01 ↔ opField cw = 0x01 := BitVec.toNat_inj (y := 0x01)
  have h3 : (opField cw).toNat = 0x03 ↔ opField cw = 0x03 := BitVec.toNat_inj (y := 0x03)
  rw [decode_refuses_iff, legalCommand_eq_true_iff, opField_undefined_iff, h1, h3, not_and_or, not_and_or,
    Classical.not_imp]

end Sys2Proof

namespace Sys2Proof.Machine

/-! ### Fault entry, as the claims name it (R145) -/

theorem raiseFault_eq_faultedState (code : FaultCode) (s : State) :
    raiseFault code s = faultedState (faultCode code) s.pending := by
  cases code <;> rfl

theorem illegalCommand_of_not_faulted {s : State} (h : s.phase ≠ .faulted) :
    illegalCommand s = faultedState 0x01 s.pending := by
  rw [illegalCommand, if_neg h, raiseFault_eq_faultedState]
  rfl

/-! ### The obligations -/

/-- Settles O1: the decoder answers an instruction where the encoder sends it as that transaction. -/
theorem decodeFollowsOpcodeMap : Obligations.DecodeFollowsOpcodeMap := by
  unfold Obligations.DecodeFollowsOpcodeMap
  intro cw data i
  rw [decode_eq_ok_iff]
  cases i <;> simp [encode, commandWord, opcode, payload, eq_comm]

/-- Settles O3: the decoder refuses by the clauses of R64, and a refused command outside FAULTED is fault entry. -/
theorem illegalTransactionsRaiseFault : Obligations.IllegalTransactionsRaiseFault := by
  unfold Obligations.IllegalTransactionsRaiseFault
  intro cw data op
  refine ⟨decode_refuses_iff_clause cw data, ?_⟩
  rintro s rest hs hphase ⟨e, he⟩
  obtain ⟨_, -, ht⟩ | ⟨i, hi, -⟩ := step_command_cases hs
  · rw [ht, illegalCommand_of_not_faulted (s := s.withPending rest) hphase, State.withPending_pending]
  · rw [he] at hi
    cases hi

end Sys2Proof.Machine
end

section
/-! SUPPORT. The two operations under a round (40_compression.md R84, R85). Rotate right is the library's
`BitVec.rotateRight` at the amounts R84 allows; G is one half run twice, with other rotation amounts and another message
word, so that each word is followed through four lines and not eight. -/

namespace Sys2Proof.Machine

/-! ### Rotate right (R84) -/

theorem rotr64_eq_rotateRight (x : Word) {n : Nat} (hn : n < 64) : rotr64 x n = x.rotateRight n :=
  (BitVec.rotateRight_eq_rotateRightAux_of_lt hn).symm

theorem toNat_rotr64 (x : Word) (n : Nat) :
    (rotr64 x n).toNat = ((x.toNat / 2 ^ n) ||| (x.toNat * 2 ^ (64 - n))) % 2 ^ 64 := by
  have hdiv : x.toNat / 2 ^ n < 2 ^ 64 := (Nat.div_le_self ..).trans_lt x.isLt
  rw [Nat.or_mod_two_pow, Nat.mod_eq_of_lt hdiv]
  simp [rotr64, Nat.shiftRight_eq_div_pow, Nat.shiftLeft_eq]

/-- Below `64 - n` the bits come from the right shift, from there on from the left shift. -/
theorem getLsbD_rotr64 (x : Word) {n k : Nat} (hn : n < 64) (hk : k < 64) :
    (rotr64 x n).getLsbD k = x.getLsbD ((k + n) % 64) := by
  rw [rotr64_eq_rotateRight x hn, BitVec.getLsbD_rotateRight, Nat.mod_eq_of_lt hn]
  by_cases hlow : k < 64 - n
  · have : (k + n) % 64 = n + k := by omega
    simp [hlow, this]
  · have : (k + n) % 64 = k - (64 - n) := by omega
    simp [hlow, hk, this]

theorem rotr64_63 (x : Word) : rotr64 x 63 = x.rotateLeft 1 := by
  rw [rotr64, BitVec.or_comm]
  rfl

/-! ### Half of G (R85) -/

/-- The four lines of G that add the message word `w`, with their two rotation amounts `p` and `q`. -/
def mixHalf {n : Nat} (v : Vector Word n) (a b c d : Fin n) (w : Word) (p q : Nat) : Vector Word n :=
  let v := v.set a (v[a] + v[b] + w)
  let v := v.set d (rotr64 (v[d] ^^^ v[a]) p)
  let v := v.set c (v[c] + v[d])
  v.set b (rotr64 (v[b] ^^^ v[c]) q)

theorem mixG_eq_mixHalf_mixHalf {n : Nat} (v : Vector Word n) (a b c d : Fin n) (x y : Word) :
    mixG v a b c d x y = mixHalf (mixHalf v a b c d x 32 24) a b c d y 16 63 := rfl

/-- Reading a vector at an index after one word of it is written. -/
theorem getElem_fin_set {n : Nat} (v : Vector Word n) (i j : Fin n) (w : Word) :
    (v.set i w)[j] = if i = j then w else v[j] := by
  simp only [Fin.getElem_fin, Vector.getElem_set, Fin.ext_iff]

section
variable {n : Nat} (v : Vector Word n) {a b c d : Fin n} (w : Word) (p q : Nat)

/-- What half of G leaves in its four words: each line reads what the ones before it wrote. -/
theorem getElem_mixHalf (h : [a, b, c, d].Nodup) :
    let a1 := v[a] + v[b] + w
    let d1 := rotr64 (v[d] ^^^ a1) p
    let c1 := v[c] + d1
    let v' := mixHalf v a b c d w p q
    v'[a] = a1 ∧ v'[b] = rotr64 (v[b] ^^^ c1) q ∧ v'[c] = c1 ∧ v'[d] = d1 := by
  obtain ⟨⟨hab, hac, had⟩, ⟨hbc, hbd⟩, hcd⟩ :
      (a ≠ b ∧ a ≠ c ∧ a ≠ d) ∧ (b ≠ c ∧ b ≠ d) ∧ c ≠ d := by simpa using h
  simp only [mixHalf, getElem_fin_set, hab, hac, had, hbc, hbd, hcd, hab.symm, hac.symm, had.symm, hbc.symm, hbd.symm,
    hcd.symm, if_true, if_false, and_self]

/-- Half of G writes no word but its four. -/
theorem getElem_mixHalf_of_notMem {j : Fin n} (hj : j ∉ [a, b, c, d]) : (mixHalf v a b c d w p q)[j] = v[j] := by
  obtain ⟨ha, hb, hc, hd⟩ : a ≠ j ∧ b ≠ j ∧ c ≠ j ∧ d ≠ j := by simpa [eq_comm] using hj
  simp only [mixHalf, getElem_fin_set, if_neg ha, if_neg hb, if_neg hc, if_neg hd]

end

/-! ### G (R85) -/

/-- G writes no word but its four. -/
theorem getElem_mixG_of_notMem {n : Nat} (v : Vector Word n) {a b c d j : Fin n} (x y : Word)
    (hj : j ∉ [a, b, c, d]) : (mixG v a b c d x y)[j] = v[j] := by
  rw [mixG_eq_mixHalf_mixHalf, getElem_mixHalf_of_notMem _ _ _ _ hj, getElem_mixHalf_of_notMem _ _ _ _ hj]

/-! ### The obligations -/

/-- Settles O20: the shifts as numbers, the bits by the library's rotate right, and rotate right by 63 as the two shifts
of rotate left by 1 in the other order. -/
theorem rotateRightBits : Obligations.RotateRightBits := by
  unfold Obligations.RotateRightBits
  exact ⟨fun x n _ hn => ⟨toNat_rotr64 x n, fun _ hk => getLsbD_rotr64 x hn hk⟩, rotr64_63, by decide, by decide⟩

/-- Settles O21: what the second half of G leaves, in terms of what the first one left. -/
theorem mixGWritesFourWords : Obligations.MixGWritesFourWords := by
  unfold Obligations.MixGWritesFourWords
  refine ⟨fun n v a b c d x y h => ?_, by decide, by decide, by decide⟩
  obtain ⟨ha1, hb1, hc1, hd1⟩ := getElem_mixHalf v x 32 24 h
  obtain ⟨ha2, hb2, hc2, hd2⟩ := getElem_mixHalf (mixHalf v a b c d x 32 24) y 16 63 h
  simp only [ha1, hb1, hc1, hd1] at ha2 hb2 hc2 hd2
  exact ⟨ha2, hb2, hc2, hd2, fun j hj => getElem_mixG_of_notMem v x y hj⟩

end Sys2Proof.Machine
end

section
/-! SUPPORT. The three commands (41_streaming.md R114 to R122). INIT is one write. UPDATE is followed one pass of its
loop at a time: the transient state a pass starts with shows only in the transient state it leaves, which the command
zeroes at its end, so that the loop after a filling pass is the UPDATE of the rest. FINAL is the padded context,
compressed. -/

namespace Sys2Proof.Machine

/-! ### HALTED, as the claims name it (R146) -/

theorem answerHalted_eq_haltedState {s : State} (h : s.phase = .faulted) : answerHalted s = haltedState s := by
  have hword : statusWord .faulted s.fcode .halted = (s.fcode.setWidth 32 <<< 16) ||| 0x00000402 :=
    BitVec.or_assoc ..
  rw [haltedState, ← hword, ← h, answerHalted_eq]

/-! ### The counter as one number (R23, R113) -/

theorem Context.t_toNat (c : Context) : c.t.toNat = c.t1.toNat * 2 ^ 64 + c.t0.toNat := toNat_append_eq_add ..

theorem Context.extractLsb'_t_low (c : Context) : c.t.extractLsb' 0 64 = c.t0 := BitVec.extractLsb'_append_eq_right

theorem Context.extractLsb'_t_high (c : Context) : c.t.extractLsb' 64 64 = c.t1 := BitVec.extractLsb'_append_eq_left

/-- The carry out of the low word is 1 exactly where its sum wraps, and then the sum is less than what was added. -/
theorem counterAdd_t (c : Context) {k : Nat} (hk : k < 2 ^ 64) : (counterAdd c k).t = c.t + BitVec.ofNat 128 k := by
  have h0 := c.t0.isLt
  have h1 := c.t1.isLt
  have hk64 : (BitVec.ofNat 64 k).toNat = k := Nat.mod_eq_of_lt hk
  have hk128 : (BitVec.ofNat 128 k).toNat = k := Nat.mod_eq_of_lt (by omega)
  apply BitVec.eq_of_toNat_eq
  rw [Context.t_toNat, BitVec.toNat_add, Context.t_toNat, hk128]
  simp only [counterAdd, Context.withCounter, BitVec.lt_def, BitVec.toNat_add, hk64]
  split <;> simp <;> omega

theorem counterAdd_t_toNat (c : Context) {k : Nat} (hk : k < 2 ^ 64) (h : c.t.toNat + k < 2 ^ 128) :
    (counterAdd c k).t.toNat = c.t.toNat + k := by
  have hk128 : (BitVec.ofNat 128 k).toNat = k := Nat.mod_eq_of_lt (by omega)
  rw [counterAdd_t c hk, BitVec.toNat_add, hk128, Nat.mod_eq_of_lt h]

/-! ### The buffer after MemWrite (R12) -/

theorem memWrite_getElem_getD (buf : Vector Byte 128) (a : Nat) (s : List Byte) (j : Fin 128) :
    (memWrite buf a s)[j] = if a ≤ j.val ∧ j.val < a + s.length then s.getD (j.val - a) 0 else buf[j] := by
  rw [Fin.getElem_fin, memWrite_getElem]
  split
  next h => rw [List.getD_eq_getElem _ _ (by omega)]
  next => rfl

/-- A payload that exceeds the room fills the buffer from `b` to its end (R115). -/
theorem memWrite_take_getElem (buf : Vector Byte 128) {b : Nat} {data : List Byte} (exceeds : 128 - b < data.length)
    (j : Fin 128) :
    (memWrite buf b (data.take (128 - b)))[j] = if b ≤ j.val then data.getD (j.val - b) 0 else buf[j] := by
  rw [memWrite_getElem_getD, List.length_take, min_eq_left exceeds.le]
  by_cases hj : b ≤ j.val
  · have hroom : j.val - b < 128 - b := by omega
    rw [if_pos hj, if_pos ⟨hj, by omega⟩, List.getD_eq_getElem?_getD, List.getD_eq_getElem?_getD,
      List.getElem?_take_of_lt hroom]
  · rw [if_neg hj, if_neg fun h => hj h.1]

/-- Zeros written from `n` to the end (R120). -/
theorem memWrite_zeros_getElem (buf : Vector Byte 128) {n : Nat} (hn : n ≤ 128) (j : Fin 128) :
    (memWrite buf n (List.replicate (128 - n) 0))[j] = if j.val < n then buf[j] else 0 := by
  rw [memWrite_getElem_getD, List.length_replicate]
  by_cases hj : j.val < n
  · rw [if_pos hj, if_neg fun h => absurd h.1 (by omega)]
  · rw [if_neg hj, if_pos (by omega), List.getD_replicate _ (by omega)]

/-! ### INIT (R114) -/

theorem execInit_of_not_faulted {s : State} (h : s.phase ≠ .faulted) :
    execInit s =
      .next (respond .ok none ((s.withCtx (Context.zero.withH initialChaining)).withPhase .absorbing)) := by
  obtain ⟨hf, -⟩ | ⟨-, ht⟩ := execInit_cases s
  · exact absurd hf h
  · exact ht

theorem getElem_initialChaining (j : Fin 8) : initialChaining[j] = IV[j] ^^^ le64 PB.toList (8 * j.val) := by
  simp [initialChaining]

/-! ### UPDATE (R115) -/

theorem encode_update (data : List Byte) : encode (.update data) = (0x00000002, data) := by
  simp [encode, commandWord, opcode, payload]

theorem execUpdate_of_idle {s : State} (data : List Byte) (hs : s.phase = .idle) :
    execUpdate data s = .next (faultedState 0x02 s.pending) := by
  simp [execUpdate, hs, raiseFault_eq_faultedState, faultCode]

theorem execUpdate_of_overflow {data : List Byte} {s : State} (hs : s.phase = .absorbing)
    (h : 2 ^ 128 - 1 < s.ctx.t.toNat + s.ctx.buflen.val + data.length) :
    execUpdate data s = .next (faultedState 0x03 s.pending) := by
  have ho : wouldOverflow s.ctx data.length = true := decide_eq_true h
  simp [execUpdate, hs, ho, raiseFault_eq_faultedState, faultCode]

theorem execUpdate_of_le {data : List Byte} {s : State} (hs : s.phase = .absorbing)
    (h : s.ctx.t.toNat + s.ctx.buflen.val + data.length ≤ 2 ^ 128 - 1) :
    execUpdate data s =
      .next (respond .ok none ((absorbLoop (data.length + 1) s data).withWork Transient.zero)) := by
  have ho : wouldOverflow s.ctx data.length = false := decide_eq_false h.not_gt
  simp [execUpdate, hs, ho]

/-- The transient state the loop starts with shows only in the one it ends with. -/
theorem absorbLoop_withWork (fuel : Nat) (s : State) (w : Transient) (data : List Byte) :
    ∃ w', absorbLoop fuel (s.withWork w) data = (absorbLoop fuel s data).withWork w' := by
  induction fuel generalizing s w data with
  | zero => exact ⟨w, rfl⟩
  | succ fuel ih =>
    by_cases hnil : data = []
    · subst hnil
      exact ⟨w, by simp only [absorbLoop_nil]⟩
    by_cases fits : data.length ≤ 128 - s.ctx.buflen.val
    · rw [absorbLoop_fits fuel s data hnil fits, absorbLoop_fits fuel (s.withWork w) data hnil fits]
      exact ⟨_, rfl⟩
    · have exceeds : 128 - s.ctx.buflen.val < data.length := not_le.mp fits
      rw [absorbLoop_exceeds fuel s data exceeds, absorbLoop_exceeds fuel (s.withWork w) data exceeds]
      exact ih (absorbBlock _ _) _ _

/-- The loop on a payload that fits, the empty one too, is the last pass, whatever the transient state is
then set to. -/
theorem absorbLoop_fits_withWork (s : State) (w : Transient) (data : List Byte)
    (fits : data.length ≤ 128 - s.ctx.buflen.val) :
    (absorbLoop (data.length + 1) s data).withWork w = (absorbTail s data fits).withWork w := by
  by_cases hnil : data = []
  · subst hnil
    rw [absorbLoop_nil]
    rfl
  · rw [absorbLoop_fits _ s data hnil fits]
    rfl

/-- The loop on a payload that exceeds the room is a filling pass and the loop on the rest, with the fuel of an UPDATE
of the rest and with the transient state UPDATE started from. -/
theorem absorbLoop_exceeds_withWork (s : State) (w : Transient) (data : List Byte)
    (exceeds : 128 - s.ctx.buflen.val < data.length) :
    let chunk := data.take (128 - s.ctx.buflen.val)
    let rest := data.drop (128 - s.ctx.buflen.val)
    (absorbLoop (data.length + 1) s data).withWork w =
      (absorbLoop (rest.length + 1) (s.withCtx (absorbBlock s chunk).ctx) rest).withWork w := by
  intro chunk rest
  let filled := s.withCtx (absorbBlock s chunk).ctx
  have hpass : passBound filled rest = rest.length := rfl
  have hrest : rest.length ≤ data.length := by simp [rest]
  obtain ⟨w', hw'⟩ := absorbLoop_withWork data.length filled
    (absorbBlock (s.withWork { s.work with remaining := data.length }) chunk).work rest
  calc (absorbLoop (data.length + 1) s data).withWork w
      = ((absorbLoop data.length filled rest).withWork w').withWork w := by
        rw [absorbLoop_exceeds _ s data exceeds, ← hw']
        rfl
    _ = (absorbLoop (rest.length + 1) filled rest).withWork w := by
        rw [absorbLoop_fuel data.length (rest.length + 1) filled rest (hpass.trans_le hrest) (by omega)]
        rfl

/-- An UPDATE whose payload exceeds the room is the UPDATE of the rest, once the first pass has filled and compressed
the buffer: the rest takes the message as far as the whole payload does, so it is not refused either. -/
theorem execUpdate_of_exceeds {data : List Byte} {s : State} (hs : s.phase = .absorbing)
    (h : s.ctx.t.toNat + s.ctx.buflen.val + data.length ≤ 2 ^ 128 - 1)
    (exceeds : 128 - s.ctx.buflen.val < data.length) :
    let c := (absorbBlock s (data.take (128 - s.ctx.buflen.val))).ctx
    c.t.toNat = s.ctx.t.toNat + 128 ∧
    execUpdate data s = execUpdate (data.drop (128 - s.ctx.buflen.val)) (s.withCtx c) := by
  intro c
  have hb := s.ctx.buflen.isLt
  have ht : c.t.toNat = s.ctx.t.toNat + 128 := counterAdd_t_toNat s.ctx (by decide) (by omega)
  have hrest : c.t.toNat + c.buflen.val + (data.drop (128 - s.ctx.buflen.val)).length ≤ 2 ^ 128 - 1 := by
    rw [ht, absorbBlock_buflen, List.length_drop, Fin.val_zero]
    omega
  refine ⟨ht, ?_⟩
  rw [execUpdate_of_le hs h, execUpdate_of_le (s := s.withCtx c) hs hrest, absorbLoop_exceeds_withWork s _ data exceeds]

/-! ### FINAL (R120) -/

theorem execFinal_of_idle {s : State} (hs : s.phase = .idle) : execFinal s = .next (faultedState 0x02 s.pending) := by
  simp [execFinal, hs, raiseFault_eq_faultedState, faultCode]

theorem execFinal_of_absorbing {s : State} (hs : s.phase = .absorbing) :
    let t := compressBuffer (s.withCtx (finalContext s.ctx))
    execFinal s = .next (respond .ok (some (digestOf t.ctx.h)) ((wipe t).withPhase .idle)) := by
  simp [execFinal, hs]

theorem finalContext_t (c : Context) : (finalContext c).t = c.t + BitVec.ofNat 128 c.buflen.val :=
  counterAdd_t c (c.buflen.isLt.trans (by decide))

/-- What FINAL compresses: the padded buffer, with the grown counter and the finalization flag. -/
theorem compressBuffer_finalContext_h (s : State) :
    (compressBuffer (s.withCtx (finalContext s.ctx))).ctx.h =
      compress s.ctx.h (finalContext s.ctx).buf ((finalContext s.ctx).t.extractLsb' 0 64)
        ((finalContext s.ctx).t.extractLsb' 64 64) (~~~ 0) s.ctx.f1 := by
  rw [Context.extractLsb'_t_low, Context.extractLsb'_t_high]
  rfl

/-! ### The obligations -/

/-- Settles O24: in FAULTED the answer HALTED, otherwise the one write of INIT, whose eight words are computed. -/
theorem initStartsMessage : Obligations.InitStartsMessage := by
  unfold Obligations.InitStartsMessage
  refine ⟨decode_eq_ok_iff.mpr rfl, fun data hdata => ?_, fun s hs => ?_, fun s hs => ?_, by decide⟩
  · exact (decode_refuses_iff_clause _ data).mpr (.inr (.inr ⟨.inl (by decide), hdata⟩))
  · rw [← answerHalted_eq_haltedState hs, exec, execInit, if_pos hs]
  · exact ⟨initialChaining, getElem_initialChaining, by decide, execInit_of_not_faulted hs⟩

/-- Settles O25: the checks one by one, then the last pass of the loop or a filling pass. -/
theorem updateFollowsBlockLoop : Obligations.UpdateFollowsBlockLoop := by
  unfold Obligations.UpdateFollowsBlockLoop
  intro data s b
  refine ⟨decode_eq_ok_iff.mpr (encode_update data), fun hs => ?_, execUpdate_of_idle data, execUpdate_of_overflow,
    fun hs h fits => ?_, fun hs h exceeds => ?_⟩
  · rw [← answerHalted_eq_haltedState hs, exec, execUpdate, if_pos hs]
  · refine ⟨_, (absorbTail s data fits).ctx.buflen, memWrite_getElem_getD s.ctx.buf b data, rfl, ?_⟩
    rw [exec, execUpdate_of_le hs h, absorbLoop_fits_withWork s _ data fits, ← hs]
    rfl
  · obtain ⟨ht, hrest⟩ := execUpdate_of_exceeds hs h exceeds
    exact ⟨_, memWrite_take_getElem s.ctx.buf exceeds, ht, rfl, rfl, rfl, rfl, hrest⟩

/-- Settles O29: the context FINAL compresses, the bytes of the digest of the result, and the wiped state. -/
theorem finalEndsMessage : Obligations.FinalEndsMessage := by
  unfold Obligations.FinalEndsMessage
  refine ⟨decode_eq_ok_iff.mpr rfl, fun s => ⟨fun hs => ?_, execFinal_of_idle, fun hs => ?_⟩⟩
  · rw [← answerHalted_eq_haltedState hs, exec, execFinal, if_pos hs]
  · have hbuflen := s.ctx.buflen.isLt
    refine ⟨(finalContext s.ctx).buf, (finalContext s.ctx).t, _, digestOf _,
      memWrite_zeros_getElem s.ctx.buf (by omega), finalContext_t s.ctx, fun hinv => ?_,
      compressBuffer_finalContext_h s, digestOf_length _, getD_digestOf _,
      execFinal_of_absorbing hs⟩
    obtain ⟨-, -, habsorbing, -⟩ := hinv
    obtain ⟨-, -, -, -, hbound, -⟩ := habsorbing hs
    exact counterAdd_t_toNat s.ctx (by omega) (by omega)

end Sys2Proof.Machine
end

section
/-! SUPPORT. What a command can do, and what it reports (60_exceptions.md R143 to R147). A command is answered HALTED,
raises one of the faults, or completes with OK outside FAULTED; which of these it does is said once for every
instruction, and the claims about the faults are read off it. -/

namespace Sys2Proof.Machine

/-! ### What an instruction can answer (R147) -/

theorem wouldOverflow_eq_true_iff (c : Context) (n : Nat) :
    wouldOverflow c n = true ↔ c.t.toNat + c.buflen.val + n > 2 ^ 128 - 1 := decide_eq_true_iff

/-- The checks in the order of R147: an instruction is answered HALTED, raises SEQUENCE, raises COUNTER_OVERFLOW, or
passes all three checks and completes with OK, which neither enters FAULTED nor records a code. -/
theorem exec_cases (i : Instr) (s : State) :
    (s.phase = .faulted ∧ exec i s = .next (answerHalted s)) ∨
    (s.phase = .idle ∧ i ≠ .init ∧ exec i s = .next (raiseFault .sequence s)) ∨
    (∃ data, s.phase = .absorbing ∧ i = .update data ∧ wouldOverflow s.ctx data.length = true ∧
      exec i s = .next (raiseFault .counterOverflow s)) ∨
    (s.phase ≠ .faulted ∧ (s.phase = .idle → i = .init) ∧
      (∀ data, i = .update data → wouldOverflow s.ctx data.length = false) ∧
      ∃ d u, exec i s = .next (respond .ok d u) ∧ u.phase ≠ .faulted ∧ u.fcode = s.fcode) := by
  cases i with
  | init =>
    obtain ⟨hp, h⟩ | ⟨hp, h⟩ := execInit_cases s
    · exact .inl ⟨hp, h⟩
    · exact .inr (.inr (.inr ⟨hp, fun _ => rfl, by simp, none, _, h, by simp, rfl⟩))
  | update data =>
    obtain ⟨hp, h⟩ | ⟨hp, h⟩ | ⟨hp, ho, h⟩ | ⟨hp, ho, h⟩ := execUpdate_cases data s
    · exact .inl ⟨hp, h⟩
    · exact .inr (.inl ⟨hp, by simp, h⟩)
    · exact .inr (.inr (.inl ⟨data, hp, rfl, ho, h⟩))
    · obtain ⟨hphase, hfcode, -⟩ := absorbLoop_frame (data.length + 1) s data
      exact .inr (.inr (.inr ⟨by simp [hp], by simp [hp], by simpa using ho, none, _, h, by simp [hphase, hp], hfcode⟩))
  | final =>
    obtain ⟨hp, h⟩ | ⟨hp, h⟩ | ⟨hp, h⟩ := execFinal_cases s
    · exact .inl ⟨hp, h⟩
    · exact .inr (.inl ⟨hp, by simp, h⟩)
    · exact .inr (.inr (.inr ⟨by simp [hp], by simp [hp], by simp, _, _, h, by simp, rfl⟩))

/-! ### What a response reports (R141) -/

/-- What ends by responding reports, in RESULT, the code it responded with. -/
theorem reports_of_eq_respond {o : Host.Outcome State Fault Refusal} {r : ResultCode} {d : Option (List Byte)}
    {u : State} (h : o = .next (respond r d u)) :
    ∃ t resp, o = .next t ∧ t.response = some resp ∧ resp.status.extractLsb' 8 8 = resultCode r :=
  ⟨_, _, h, respond_response r d u, statusWord_result_field ..⟩

theorem illegalCommand_reports (s : State) :
    ∃ resp, (illegalCommand s).response = some resp ∧
      resp.status.extractLsb' 8 8 = if s.phase = .faulted then 0x04 else 0x01 := by
  unfold illegalCommand
  split
  · exact ⟨_, rfl, statusWord_result_field ..⟩
  · exact ⟨_, rfl, statusWord_result_field ..⟩

/-- The lines of R147 that a command which decodes can reach, one for each case of `exec_cases`. -/
theorem exec_reports (i : Instr) (s : State) :
    ∃ t resp, exec i s = .next t ∧ t.response = some resp ∧
      resp.status.extractLsb' 8 8 =
        if s.phase = .faulted then 0x04
        else if s.phase = .idle ∧ i ≠ .init then 0x02
        else if i = .update (payload i) ∧
            s.ctx.t.toNat + s.ctx.buflen.val + (payload i).length > 2 ^ 128 - 1 then 0x03
        else 0x00 := by
  obtain ⟨hp, h⟩ | ⟨hp, hi, h⟩ | ⟨data, hp, rfl, ho, h⟩ | ⟨hp, hi, ho, _, _, h, -⟩ := exec_cases i s
  · rw [if_pos hp]
    exact reports_of_eq_respond (r := .halted) h
  · rw [if_neg (by simp [hp]), if_pos ⟨hp, hi⟩]
    exact reports_of_eq_respond (r := .fault .sequence) h
  · rw [if_neg (by simp [hp]), if_neg (by simp [hp]), if_pos ⟨rfl, (wouldOverflow_eq_true_iff ..).mp ho⟩]
    exact reports_of_eq_respond (r := .fault .counterOverflow) h
  · have fits : ¬ (i = .update (payload i) ∧
        s.ctx.t.toNat + s.ctx.buflen.val + (payload i).length > 2 ^ 128 - 1) := fun ⟨hu, hover⟩ =>
      absurd ((wouldOverflow_eq_true_iff ..).mpr hover) (by simp [ho _ hu])
    rw [if_neg hp, if_neg fun ⟨hidle, hne⟩ => hne (hi hidle), if_neg fits]
    exact reports_of_eq_respond h

/-! ### Fault entry (R145) -/

theorem faultCode_eq_or (code : FaultCode) :
    faultCode code = 0x01 ∨ faultCode code = 0x02 ∨ faultCode code = 0x03 := by
  cases code <;> decide

/-- A step from outside FAULTED into it is fault entry, whatever the event was. -/
theorem step_eq_faultedState {s t : State} (h : step s = .next t) (hs : s.phase ≠ .faulted)
    (ht : t.phase = .faulted) : ∃ code, t = faultedState (faultCode code) s.pending.tail := by
  obtain ⟨-, h'⟩ | ⟨rest, -, h'⟩ | ⟨cw, data, rest, e, hp, -, h'⟩ | ⟨cw, data, rest, i, hp, -, h'⟩ := step_cases s
  case inl =>
    cases h.symm.trans h'
    exact absurd ht hs
  case inr.inl =>
    cases h.symm.trans h'
    cases ht
  case inr.inr.inl =>
    cases h.symm.trans h'
    rw [hp]
    exact ⟨.illegalCommand, illegalCommand_of_not_faulted hs⟩
  case inr.inr.inr =>
    rw [hp]
    obtain ⟨hf, -⟩ | ⟨-, -, h''⟩ | ⟨_, -, -, -, h''⟩ | ⟨-, -, -, d, u, h'', hu, -⟩ := exec_cases i (s.withPending rest)
    · exact absurd hf hs
    · cases h.symm.trans (h'.trans h'')
      exact ⟨.sequence, raiseFault_eq_faultedState ..⟩
    · cases h.symm.trans (h'.trans h'')
      exact ⟨.counterOverflow, raiseFault_eq_faultedState ..⟩
    · cases h.symm.trans (h'.trans h'')
      exact absurd ht hu

/-! ### The obligations -/

/-- Settles O33: SEQUENCE from the commands' check in IDLE; for INIT the lines after HALTED do not apply. -/
theorem sequenceRaisedInIdle : Obligations.SequenceRaisedInIdle := by
  unfold Obligations.SequenceRaisedInIdle
  refine ⟨fun s hs => ⟨fun data => execUpdate_of_idle data hs, execFinal_of_idle hs⟩, fun s => ?_⟩
  obtain ⟨t, resp, ht, hresp, hr⟩ := exec_reports .init s
  exact ⟨t, resp, ht, hresp, by cases hp : s.phase <;> simp [hr, hp]⟩

/-- Settles O34: the two sides of UPDATE's check; the loop that absorbs an accepted payload keeps the phase. -/
theorem counterOverflowRaisedPastBound : Obligations.CounterOverflowRaisedPastBound := by
  unfold Obligations.CounterOverflowRaisedPastBound
  refine fun data s hs => ⟨execUpdate_of_overflow hs, fun hle => ?_⟩
  obtain ⟨hphase, -⟩ := absorbLoop_frame (data.length + 1) s data
  exact ⟨_, _, execUpdate_of_le hs hle, hphase.trans hs, respond_response .., statusWord_result_field ..⟩

/-- Settles O35: a step into FAULTED leaves the state of fault entry, whose registers are zero. -/
theorem faultEntryWipesAndRecords : Obligations.FaultEntryWipesAndRecords := by
  unfold Obligations.FaultEntryWipesAndRecords
  intro s t h hs ht
  obtain ⟨code, rfl⟩ := step_eq_faultedState h hs ht
  exact ⟨faultCode_eq_or code, rfl, by simp [faultedState, Context.zero], show Context.zero.t = 0 by decide, rfl, rfl,
    by simp [faultedState, Context.zero], rfl⟩

/-- Settles O38: what does not decode is answered by the first two lines of R147, what decodes by the others. -/
theorem resultFollowsPriority : Obligations.ResultFollowsPriority := by
  unfold Obligations.ResultFollowsPriority
  intro s cw data rest hs
  obtain ⟨e, hd, h⟩ | ⟨i, hd, h⟩ := step_command_cases hs
  · obtain ⟨resp, hresp, hr⟩ := illegalCommand_reports (s.withPending rest)
    have refused : (decode cw data).toOption = none := by rw [hd, Except.toOption]
    rw [if_pos refused]
    exact ⟨_, resp, h, hresp, hr⟩
  · have hpayload : payload i = data := congrArg Prod.snd (encode_of_decode_eq_ok hd)
    rw [h]
    simpa [hd, Except.toOption, hpayload] using exec_reports i (s.withPending rest)

end Sys2Proof.Machine
end

section
/-! SUPPORT. The transactions of the assembler and of the sample table (30_encoding.md R65, R70 to R72). Every line but
`.word` emits transactions that instructions are sent as, so what is known of the encoder is known of the assembler. -/

namespace Sys2Proof

/-- Settles O2: the two halves are the two directions of `decode_eq_ok_iff`. -/
theorem encodeDecodeAgree : Obligations.EncodeDecodeAgree := by
  unfold Obligations.EncodeDecodeAgree
  exact ⟨fun i _ => decode_encode i, fun _ _ i h => ⟨by cases i <;> rfl, encode_of_decode_eq_ok h⟩⟩

/-- Settles O4: eleven closed transactions, each decoded. -/
theorem sampleWordsDecode : Obligations.SampleWordsDecode := by
  unfold Obligations.SampleWordsDecode
  decide

end Sys2Proof

namespace Sys2Proof.Machine

/-! ### What a line emits (R70, R72) -/

/-- A line other than `.word` emits the transactions of instructions: those of HASH are three, of any other line one. -/
theorem assembleLine_eq_map_encode (l : AsmLine) (emitted : List (CmdWord × List Byte)) :
    assembleLine l = some emitted → (∀ cw op, l ≠ .word cw op) →
    ∃ is : List Instr, emitted = is.map encode ∧ is.length = (match l with | .hash _ => 3 | _ => 1) := by
  intro h hl
  cases l with
  | init => cases h; exact ⟨[.init], rfl, rfl⟩
  | final => cases h; exact ⟨[.final], rfl, rfl⟩
  | word cw op => exact absurd rfl (hl cw op)
  | update op =>
    obtain ⟨bytes, -, rfl⟩ := Option.map_eq_some_iff.mp h
    exact ⟨[.update bytes], rfl, rfl⟩
  | hash op =>
    obtain ⟨bytes, -, rfl⟩ := Option.map_eq_some_iff.mp h
    exact ⟨[.init, .update bytes, .final], rfl, rfl⟩

/-! ### The bytes of an operand (R71) -/

theorem hexBytes_of_odd (ds : List (Fin 16)) (h : ds.length % 2 = 1) : hexBytes ds = none := by
  induction ds using hexBytes.induct with
  | case1 => cases h
  | case2 => rfl
  | case3 hi lo rest ih =>
    have hodd : rest.length % 2 = 1 := by simp only [List.length_cons] at h; omega
    rw [hexBytes, ih hodd]
    rfl

theorem hexBytes_of_even (ds : List (Fin 16)) (h : ds.length % 2 = 0) :
    ∃ bs, hexBytes ds = some bs ∧ bs.length = ds.length / 2 ∧
      ∀ k, k < bs.length →
        (bs.getD k 0).toNat = 16 * (ds.getD (2 * k) 0).val + (ds.getD (2 * k + 1) 0).val := by
  induction ds using hexBytes.induct with
  | case1 => exact ⟨[], rfl, rfl, nofun⟩
  | case2 => cases h
  | case3 hi lo rest ih =>
    have heven : rest.length % 2 = 0 := by simp only [List.length_cons] at h; omega
    obtain ⟨bs, hbs, hlen, hget⟩ := ih heven
    refine ⟨BitVec.ofNat 8 (16 * hi.val + lo.val) :: bs, by rw [hexBytes, hbs]; rfl, ?_, fun k hk => ?_⟩
    · simp only [List.length_cons, hlen]
      omega
    cases k with
    | zero =>
      have : 16 * hi.val + lo.val < 2 ^ 8 := by omega
      simpa using this
    | succ k => exact hget k (by simpa using hk)

theorem operandBytes_text (cs : List Char) :
    operandBytes (.text cs) =
      if ∀ c ∈ cs, 0x20 ≤ c.toNat ∧ c.toNat ≤ 0x7E ∧ c.toNat ≠ 0x22 then
        some (cs.map fun c => BitVec.ofNat 8 c.toNat)
      else none := by
  have hall : cs.all textChar = true ↔ ∀ c ∈ cs, 0x20 ≤ c.toNat ∧ c.toNat ≤ 0x7E ∧ c.toNat ≠ 0x22 := by
    simp [textChar, and_assoc]
  simp only [operandBytes, hall]

/-! ### The obligations -/

/-- Settles O8: what a line other than `.word` emits is the encoding of instructions, which is legal and decodes; the
rest is read off `assembleLine`, once the operand's bytes are known. -/
theorem assemblerEmitsLegalCommands : Obligations.AssemblerEmitsLegalCommands := by
  unfold Obligations.AssemblerEmitsLegalCommands
  refine ⟨fun l emitted h hl => ?_, by decide, by decide, fun op bytes h => ?_, fun _ => rfl, fun op h => ?_⟩
  · obtain ⟨is, rfl, hlen⟩ := assembleLine_eq_map_encode l emitted h hl
    refine ⟨fun p hp => ?_, (List.length_map _).trans hlen⟩
    obtain ⟨i, -, rfl⟩ := List.mem_map.mp hp
    exact ⟨legalCommand_encode i, i, decode_encode i⟩
  · have hinit : encode .init = (0x00000001, []) := by decide
    have hfinal : encode .final = (0x00000003, []) := by decide
    simp [assembleLine, h, hinit, encode_update, hfinal]
  · simp [assembleLine, h]

/-- Settles O9: form by form; the hexadecimal digits by recursion two at a time. -/
theorem operandBytesByForm : Obligations.OperandBytesByForm := by
  unfold Obligations.OperandBytesByForm
  refine ⟨operandBytes_text, fun ds => ⟨hexBytes_of_odd ds, hexBytes_of_even ds⟩, fun n => ?_, fun n => ?_,
    fun a b x y ha hb => ?_⟩
  · exact ⟨_, rfl, List.length_replicate, fun b hb => List.eq_of_mem_replicate hb⟩
  · refine ⟨_, rfl, by simp, fun k hk => ?_⟩
    simp [List.getD_eq_getElem?_getD, hk]
  · simp [operandBytes, ha, hb]

end Sys2Proof.Machine
end

section
/-! SUPPORT. Reading back what was written: a word serialised, bytes put into the buffer, and the counter's two words
(20_memory.md R12, R42; 41_streaming.md R113). -/

namespace Sys2Proof.Machine

/-! ### Reading back what was written -/

/-- The bytes of a word are its digits to the base 256, and `le64` is the sum they are the digits of. -/
theorem le64_le64bytes (w : Word) : le64 (le64bytes w) 0 = w := by
  have hw := w.isLt
  apply BitVec.eq_of_toNat_eq
  simp only [toNat_le64, le64bytes, byteOf, List.getD_cons_zero, List.getD_cons_succ, BitVec.extractLsb'_toNat,
    Nat.shiftRight_eq_div_pow]
  omega

theorem memRead_memWrite (buf : Vector Byte 128) {a : Nat} {s : List Byte} (h : a + s.length ≤ 128) :
    memRead (memWrite buf a s) a s.length = s := by
  refine List.ext_getElem (memRead_length _ _ _ h) fun k _ hk => ?_
  simp [memRead, memWrite_getElem, hk]

theorem memWrite_getElem_of_outside (buf : Vector Byte 128) (a : Nat) (s : List Byte) (j : Fin 128)
    (hj : j.val < a ∨ a + s.length ≤ j.val) : (memWrite buf a s)[j] = buf[j] := by
  rw [memWrite_getElem_getD, if_neg (by omega)]

/-- Settles O17: the bytes of a word are its bit fields, and they join to the word. -/
theorem writeThenReadWord : Obligations.WriteThenReadWord := by
  unfold Obligations.WriteThenReadWord
  exact ⟨fun w => ⟨le64bytes_length w, le64_le64bytes w, fun _ hk => getD_le64bytes w hk⟩, by decide⟩

/-- Settles O18: what MemWrite leaves inside its range and outside it. -/
theorem bufferReadAfterWrite : Obligations.BufferReadAfterWrite := by
  unfold Obligations.BufferReadAfterWrite
  exact fun buf a s h => ⟨memRead_memWrite buf h, memWrite_getElem_of_outside buf a s⟩

/-- Settles O19: the counter words are the two halves of the sum, and CounterAdd writes nothing else. -/
theorem counterAddIsWideAddition : Obligations.CounterAddIsWideAddition := by
  unfold Obligations.CounterAddIsWideAddition
  intro c k hk
  have ht : (counterAdd c k).t = c.t + BitVec.ofNat 128 k := counterAdd_t c (by omega)
  rw [← ht, Context.extractLsb'_t_low, Context.extractLsb'_t_high]
  exact ⟨rfl, rfl⟩

end Sys2Proof.Machine
end

section
/-! SUPPORT. The order of the G operations (40_compression.md R86 to R94). G on one quadruple of words neither reads nor
writes the words of a disjoint one, so the operations of one half of a round commute; the sequencer does them in the
order of `mixRound`, eight steps a round. -/

namespace Sys2Proof.Machine

/-! ### One G operation of a round (R86, R87) -/

/-- The four indices of G operation `i` (R87). -/
def quadIndices (i : Fin 8) : List (Fin 16) :=
  [quadruples[i].1, quadruples[i].2.1, quadruples[i].2.2.1, quadruples[i].2.2.2]

theorem mixStep_eq_mixG (m : Vector Word 16) (r : Fin 12) (v : Vector Word 16) (i : Fin 8) :
    mixStep m r v i =
      mixG v quadruples[i].1 quadruples[i].2.1 quadruples[i].2.2.1 quadruples[i].2.2.2
        (wordX m r i) (wordY m r i) := rfl

theorem quadIndices_nodup (i : Fin 8) : (quadIndices i).Nodup := by
  revert i
  decide

/-- No two column operations, and no two diagonal ones, share an index (R89). -/
theorem quadIndices_disjoint {i j : Fin 8} (hne : i ≠ j) (hhalf : i.val / 4 = j.val / 4) :
    (quadIndices i).Disjoint (quadIndices j) := by
  have : ∀ i j : Fin 8, i ≠ j → i.val / 4 = j.val / 4 → ∀ k ∈ quadIndices i, k ∉ quadIndices j := by decide
  exact fun k => this i j hne hhalf k

section
variable (m : Vector Word 16) (r : Fin 12) (v : Vector Word 16)

theorem getElem_mixStep_of_notMem {i : Fin 8} {k : Fin 16} (hk : k ∉ quadIndices i) : (mixStep m r v i)[k] = v[k] :=
  getElem_mixG_of_notMem v _ _ hk

/-- What G leaves in its four words depends on those words alone (R85). -/
theorem getElem_mixStep_congr {i : Fin 8} {w : Vector Word 16} (h : ∀ k ∈ quadIndices i, v[k] = w[k]) :
    ∀ k ∈ quadIndices i, (mixStep m r v i)[k] = (mixStep m r w i)[k] := by
  obtain ⟨hG, -⟩ := mixGWritesFourWords
  obtain ⟨hva, hvb, hvc, hvd, -⟩ := hG 16 v _ _ _ _ (wordX m r i) (wordY m r i) (quadIndices_nodup i)
  obtain ⟨hwa, hwb, hwc, hwd, -⟩ := hG 16 w _ _ _ _ (wordX m r i) (wordY m r i) (quadIndices_nodup i)
  simp only [quadIndices, List.forall_mem_cons] at h ⊢
  obtain ⟨ha, hb, hc, hd, -⟩ := h
  simp only [mixStep_eq_mixG, hva, hvb, hvc, hvd, hwa, hwb, hwc, hwd, ha, hb, hc, hd, true_and]
  nofun

/-- In the words of an operation, one without a common index neither shows before it nor after it. -/
theorem getElem_mixStep_mixStep_of_mem {i j : Fin 8} (h : (quadIndices i).Disjoint (quadIndices j)) {k : Fin 16}
    (hk : k ∈ quadIndices i) : (mixStep m r (mixStep m r v i) j)[k] = (mixStep m r (mixStep m r v j) i)[k] := by
  have hsame : ∀ l ∈ quadIndices i, v[l] = (mixStep m r v j)[l] := fun l hl =>
    (getElem_mixStep_of_notMem m r v (h hl)).symm
  rw [getElem_mixStep_of_notMem m r _ (h hk), getElem_mixStep_congr m r v hsame k hk]

/-- G operations without a common index commute (R89). -/
theorem mixStep_comm {i j : Fin 8} (h : (quadIndices i).Disjoint (quadIndices j)) :
    mixStep m r (mixStep m r v i) j = mixStep m r (mixStep m r v j) i := by
  have hword (k : Fin 16) :
      (mixStep m r (mixStep m r v i) j)[k] = (mixStep m r (mixStep m r v j) i)[k] := by
    by_cases hi : k ∈ quadIndices i
    · rw [getElem_mixStep_mixStep_of_mem m r v h hi]
    by_cases hj : k ∈ quadIndices j
    · rw [getElem_mixStep_mixStep_of_mem m r v h.symm hj]
    · rw [getElem_mixStep_of_notMem m r _ hj, getElem_mixStep_of_notMem m r _ hi,
        getElem_mixStep_of_notMem m r _ hi, getElem_mixStep_of_notMem m r _ hj]
  exact Vector.ext fun k hk => hword ⟨k, hk⟩

/-- The operations of one half of a round may run in any order (R89). -/
theorem foldl_mixStep_perm {l l' : List (Fin 8)} (h : l.Perm l')
    (hhalf : ∀ i ∈ l, ∀ j ∈ l, i.val / 4 = j.val / 4) : l.foldl (mixStep m r) v = l'.foldl (mixStep m r) v := by
  refine h.foldl_eq' (fun i hi j hj u => ?_) v
  by_cases hij : i = j
  · rw [hij]
  · exact mixStep_comm m r u (quadIndices_disjoint hij (hhalf i hi j hj))

/-- A round is its four column operations, then its four diagonal ones (R87, R88). -/
theorem mixRound_eq_foldl :
    mixRound m v r = ([0, 1, 2, 3] ++ [4, 5, 6, 7] : List (Fin 8)).foldl (mixStep m r) v := by
  have : List.finRange 8 = [0, 1, 2, 3] ++ [4, 5, 6, 7] := by decide
  rw [mixRound, this]

end

/-! ### The sequencer (R94) -/

theorem sequencerSteps_add (a b : Nat) (w : Transient) :
    sequencerSteps (a + b) w = sequencerSteps b (sequencerSteps a w) := by
  induction a generalizing w with
  | zero => rw [Nat.zero_add]; rfl
  | succ a ih => rw [Nat.add_right_comm]; exact ih (sequencerStep w)

/-- Eight steps from G index 0 are a round, and lead to G index 0 of the next one. -/
theorem sequencerSteps_eight (w : Transient) (hi : w.i = 0) :
    sequencerSteps 8 w = { w with v := mixRound w.m w.v w.r, r := w.r + 1 } := by
  rw [mixRound_eq_foldl]
  simp [sequencerSteps, sequencerStep, hi]

theorem sequencerSteps_rounds (w : Transient) (hi : w.i = 0) (hr : w.r = 0) {k : Nat} (hk : k ≤ 12) :
    sequencerSteps (8 * k) w =
      { w with v := ((List.finRange 12).take k).foldl (mixRound w.m) w.v, r := Fin.ofNat 12 k } := by
  induction k with
  | zero => simp [sequencerSteps, ← hr]
  | succ k ih =>
    have htake : (List.finRange 12).take (k + 1) = (List.finRange 12).take k ++ [Fin.ofNat 12 k] := by
      rw [List.take_add_one, List.getElem?_eq_getElem (by simpa using hk), List.getElem_finRange]
      have : k % 12 = k := Nat.mod_eq_of_lt hk
      simp [Fin.ext_iff, this]
    have hsucc : Fin.ofNat 12 (k + 1) = Fin.ofNat 12 k + 1 := Fin.ext (by simp [Fin.val_add])
    rw [Nat.mul_succ, sequencerSteps_add, ih (by omega), htake, List.foldl_append, List.foldl_cons,
      List.foldl_nil, hsucc, sequencerSteps_eight]
    exact hi

/-- All 96 steps of a compression are the twelve rounds (R92, R94). -/
theorem sequencerSteps_load_v (w : Transient) (h : Vector Word 8) (block : Vector Byte 128) (t0 t1 f0 f1 : Word) :
    (sequencerSteps 96 (sequencerLoad w h block t0 t1 f0 f1)).v =
      mixRounds (messageWords block) (workingVector h t0 t1 f0 f1) := by
  have := sequencerSteps_rounds (sequencerLoad w h block t0 t1 f0 f1) rfl rfl (k := 12) le_rfl
  rw [show 96 = 8 * 12 from rfl, this, List.take_of_length_le (by simp)]
  rfl

theorem getElem_feedForward (h : Vector Word 8) (v : Vector Word 16) (j : Fin 8) :
    (feedForward h v)[j] = h[j] ^^^ v[j.val] ^^^ v[j.val + 8] := by
  simp [feedForward]

/-! ### The obligations -/

/-- Settles O22: each half of the round in its own order, by the commuting of operations without a common index. -/
theorem orderWithinStepIsFree : Obligations.OrderWithinStepIsFree := by
  unfold Obligations.OrderWithinStepIsFree
  intro m v r columns diagonals hc hd
  have hcolumns : ∀ i ∈ ([0, 1, 2, 3] : List (Fin 8)), ∀ j ∈ ([0, 1, 2, 3] : List (Fin 8)),
      i.val / 4 = j.val / 4 := by decide
  have hdiagonals : ∀ i ∈ ([4, 5, 6, 7] : List (Fin 8)), ∀ j ∈ ([4, 5, 6, 7] : List (Fin 8)),
      i.val / 4 = j.val / 4 := by decide
  rw [mixRound_eq_foldl, List.foldl_append, List.foldl_append,
    foldl_mixStep_perm m r v hc.symm hcolumns, foldl_mixStep_perm m r _ hd.symm hdiagonals]

/-- Settles O23: the working vector word by word, the rounds by `sequencerSteps_rounds`, and the feed-forward of what
the 96 steps leave. -/
theorem sequencerComputesCompress : Obligations.SequencerComputesCompress := by
  unfold Obligations.SequencerComputesCompress
  intro w h block t0 t1 f0 f1 start done
  refine ⟨fun j => ?_, fun j => ?_, rfl, rfl, rfl, rfl, rfl, fun k hk => sequencerSteps_rounds start rfl rfl hk,
    fun j => ?_⟩
  · fin_cases j <;> rfl
  · fin_cases j <;> rfl
  · rw [show done.v = _ from sequencerSteps_load_v w h block t0 t1 f0 f1, compress, getElem_feedForward]

/-- Settles O45: the quadruples and the places in SIGMA are the numbers of R87 and R86, and a round is its eight
operations in order. -/
theorem roundFollowsWiring : Obligations.RoundFollowsWiring := by
  unfold Obligations.RoundFollowsWiring
  intro m r
  refine ⟨fun v => ⟨rfl, rfl, rfl, rfl, rfl, rfl, rfl, rfl⟩, fun v0 => ?_⟩
  rw [mixRound_eq_foldl]
  rfl

end Sys2Proof.Machine
end

section
/-! SUPPORT. UPDATE as a function of the context (41_streaming.md R115 to R119, R124). What an accepted UPDATE leaves is
a function of the context and the payload; what it has done to the context is said once, by `Absorbs`, block by block of
the bytes pending before it followed by its payload. -/

namespace Sys2Proof.Machine

/-! ### What the loop does to the context, whatever the rest of the state is -/

/-- Of the state it starts from, only the context shows in the context the loop leaves. -/
theorem absorbLoop_ctx_congr (fuel : Nat) {s s' : State} (data : List Byte) (h : s.ctx = s'.ctx) :
    (absorbLoop fuel s data).ctx = (absorbLoop fuel s' data).ctx := by
  induction fuel generalizing s s' data with
  | zero => exact h
  | succ fuel ih =>
    by_cases hnil : data = []
    · subst hnil
      simpa only [absorbLoop_nil] using h
    by_cases fits : data.length ≤ 128 - s.ctx.buflen.val
    · rw [absorbLoop_fits fuel s data hnil fits, absorbLoop_fits fuel s' data hnil (h ▸ fits)]
      simp only [absorbTail, State.withCtx_ctx, State.withWork_ctx, h]
    · have exceeds : 128 - s.ctx.buflen.val < data.length := not_le.mp fits
      rw [absorbLoop_exceeds fuel s data exceeds, absorbLoop_exceeds fuel s' data (h ▸ exceeds), h]
      refine ih _ ?_
      simp only [absorbBlock_ctx, State.withWork_ctx, h]

/-- An accepted UPDATE replaces the context, zeroes the transient state and answers OK; all else stays. -/
theorem execUpdate_accepted {data : List Byte} {s : State} (hs : s.phase = .absorbing)
    (h : s.ctx.t.toNat + s.ctx.buflen.val + data.length ≤ 2 ^ 128 - 1) :
    execUpdate data s = .next
      { s with
        ctx := (absorbLoop (data.length + 1) s data).ctx, work := Transient.zero
        response := some ⟨statusWord .absorbing s.fcode .ok, none⟩ } := by
  obtain ⟨hphase, hfcode, hpending, -⟩ := absorbLoop_frame (data.length + 1) s data
  rw [execUpdate_of_le hs h, respond, State.withResponse, State.withWork]
  simp only [hphase, hfcode, hpending, hs]

/-- UPDATE in ABSORBING looks at the context, fcode and the host's queue alone. -/
theorem execUpdate_congr (data : List Byte) {s s' : State} (hs : s.phase = .absorbing) (hs' : s'.phase = .absorbing)
    (hctx : s.ctx = s'.ctx) (hfcode : s.fcode = s'.fcode) (hpending : s.pending = s'.pending) :
    execUpdate data s = execUpdate data s' := by
  by_cases h : s.ctx.t.toNat + s.ctx.buflen.val + data.length ≤ 2 ^ 128 - 1
  · rw [execUpdate_accepted hs h, execUpdate_accepted hs' (hctx ▸ h), absorbLoop_ctx_congr _ data hctx, hs, hs',
      hfcode, hpending]
  · rw [execUpdate_of_overflow hs (not_le.mp h), execUpdate_of_overflow hs' (hctx ▸ not_le.mp h), hpending]

/-- An accepted UPDATE whose payload fits, the empty one too, stores it in the buffer (R115, R118). -/
theorem execUpdate_of_fits {data : List Byte} {s : State} (hs : s.phase = .absorbing)
    (h : s.ctx.t.toNat + s.ctx.buflen.val + data.length ≤ 2 ^ 128 - 1)
    (fits : data.length ≤ 128 - s.ctx.buflen.val) :
    execUpdate data s = .next
      { s with
        ctx := (absorbTail s data fits).ctx, work := Transient.zero
        response := some ⟨statusWord .absorbing s.fcode .ok, none⟩ } := by
  rw [execUpdate_of_le hs h, absorbLoop_fits_withWork s _ data fits, ← hs]
  rfl

/-! ### The blocks of a byte sequence (R119, R123) -/

theorem interiorBlocks_of_le {n : Nat} (h : n ≤ 128) : interiorBlocks n = 0 := by
  unfold interiorBlocks
  omega

theorem interiorBlocks_of_gt {n : Nat} (h : 128 < n) : interiorBlocks n = interiorBlocks (n - 128) + 1 := by
  unfold interiorBlocks
  omega

theorem mul_interiorBlocks_le (n : Nat) : 128 * interiorBlocks n ≤ n := by
  unfold interiorBlocks
  omega

/-- The last block of a message that has bytes is not empty. -/
theorem mul_interiorBlocks_lt {n : Nat} (h : 0 < n) : 128 * interiorBlocks n < n := by
  unfold interiorBlocks
  omega

theorem getD_drop (bytes : List Byte) (n k : Nat) : (bytes.drop n).getD k 0 = bytes.getD (n + k) 0 := by
  simp only [List.getD_eq_getElem?_getD, List.getElem?_drop]

theorem getElem_blockAt (bytes : List Byte) (k : Nat) (j : Fin 128) :
    (blockAt bytes k)[j] = bytes.getD (128 * k + j.val) 0 := by
  simp [blockAt]

theorem blockAt_drop (bytes : List Byte) (k : Nat) : blockAt (bytes.drop 128) k = blockAt bytes (k + 1) := by
  have hpos (j : Nat) : 128 + (128 * k + j) = 128 * (k + 1) + j := by omega
  simp only [blockAt, getD_drop, hpos]

/-- The first of the blocks may be taken off in front. -/
theorem chainAfter_succ_left (h : Vector Word 8) (t : Nat) (f0 f1 : Word) (bytes : List Byte) (k : Nat) :
    chainAfter (compressAt h (blockAt bytes 0) (t + 128) f0 f1) (t + 128) f0 f1 (bytes.drop 128) k =
      chainAfter h t f0 f1 bytes (k + 1) := by
  induction k with
  | zero => rfl
  | succ k ih =>
    have ht : t + 128 + 128 * (k + 1) = t + 128 * (k + 1 + 1) := by omega
    rw [chainAfter, ih, blockAt_drop, ht]
    rfl

/-- COMPRESS with the two counter words of a context is COMPRESS with its counter (R23). -/
theorem compress_eq_compressAt (h : Vector Word 8) (block : Vector Byte 128) (c : Context) (f0 f1 : Word) :
    compress h block c.t0 c.t1 f0 f1 = compressAt h block c.t.toNat f0 f1 := by
  have h0 := c.t0.isLt
  have h1 := c.t1.isLt
  have hlow : BitVec.ofNat 64 c.t.toNat = c.t0 :=
    BitVec.eq_of_toNat_eq (by rw [Context.t_toNat, BitVec.toNat_ofNat]; omega)
  have hhigh : BitVec.ofNat 64 (c.t.toNat / 2 ^ 64) = c.t1 :=
    BitVec.eq_of_toNat_eq (by rw [Context.t_toNat, BitVec.toNat_ofNat]; omega)
  rw [compressAt, hlow, hhigh]

/-! ### The pending bytes (R26) -/

theorem pendingBytes_length (c : Context) : (pendingBytes c).length = c.buflen.val :=
  memRead_length _ _ _ (by have := c.buflen.isLt; omega)

theorem pendingBytes_getD (c : Context) (j : Fin 128) (hj : j.val < c.buflen.val) :
    (pendingBytes c).getD j.val 0 = c.buf[j] := by
  rw [List.getD_eq_getElem _ _ (by rwa [pendingBytes_length])]
  simp [pendingBytes, memRead]

theorem pendingBytes_append_getD (c : Context) (data : List Byte) (j : Fin 128) :
    (pendingBytes c ++ data).getD j.val 0 =
      if c.buflen.val ≤ j.val then data.getD (j.val - c.buflen.val) 0 else c.buf[j] := by
  split
  next h => rw [List.getD_append_right _ _ _ _ (by rwa [pendingBytes_length]), pendingBytes_length]
  next h => rw [List.getD_append _ _ _ _ (by rw [pendingBytes_length]; omega), pendingBytes_getD c j (by omega)]

/-! ### What an UPDATE does to the context -/

/-- `c'` is what `c` becomes when the bytes of `stream`, its pending ones and those that follow them, have come in: all
of their blocks but the last are compressed (R116, R119), the bytes of the last one are pending, and past them the
buffer holds what was left over (R26). -/
structure Absorbs (c : Context) (stream : List Byte) (c' : Context) : Prop where
  chain : c'.h = chainAfter c.h c.t.toNat c.f0 c.f1 stream (interiorBlocks stream.length)
  counter : c'.t.toNat = c.t.toNat + 128 * interiorBlocks stream.length
  pending : pendingBytes c' = stream.drop (128 * interiorBlocks stream.length)
  leftover : ∀ j : Fin 128, c'.buflen.val ≤ j.val →
    c'.buf[j] = if interiorBlocks stream.length = 0 then c.buf[j]
      else stream.getD (128 * (interiorBlocks stream.length - 1) + j.val) 0
  f0 : c'.f0 = c.f0
  f1 : c'.f1 = c.f1

section
variable {c c' : Context} {stream : List Byte}

theorem Absorbs.fill (h : Absorbs c stream c') :
    c'.buflen.val + 128 * interiorBlocks stream.length = stream.length := by
  have hle := mul_interiorBlocks_le stream.length
  rw [← pendingBytes_length, h.pending, List.length_drop]
  omega

theorem Absorbs.buflen_pos (h : Absorbs c stream c') (hpos : 0 < stream.length) : 0 < c'.buflen.val := by
  have hlt := mul_interiorBlocks_lt hpos
  have hfill := h.fill
  omega

/-- No byte is lost: what is compressed is counted, and the rest is pending (R126). -/
theorem Absorbs.total (h : Absorbs c stream c') : c'.t.toNat + c'.buflen.val = c.t.toNat + stream.length := by
  have hfill := h.fill
  have hcounter := h.counter
  omega

end

section
variable (s : State) (data : List Byte)

theorem absorbTail_pendingBytes (fits : data.length ≤ 128 - s.ctx.buflen.val) :
    pendingBytes (absorbTail s data fits).ctx = pendingBytes s.ctx ++ data := by
  have hlen : (pendingBytes (absorbTail s data fits).ctx).length = (pendingBytes s.ctx ++ data).length := by
    simp only [pendingBytes_length, List.length_append]
    rfl
  refine List.ext_getElem hlen fun j hj hj' => ?_
  rw [pendingBytes_length] at hj
  have hlt : j < s.ctx.buflen.val + data.length := hj
  have hj128 : j < 128 := by omega
  have hread := pendingBytes_getD (absorbTail s data fits).ctx ⟨j, hj128⟩ hj
  have hwritten := memWrite_getElem_getD s.ctx.buf s.ctx.buflen.val data ⟨j, hj128⟩
  have hstream := pendingBytes_append_getD s.ctx data ⟨j, hj128⟩
  simp only [hlt, and_true] at hwritten
  rw [List.getD_eq_getElem _ _ (by rwa [pendingBytes_length])] at hread
  rw [List.getD_eq_getElem _ _ hj'] at hstream
  exact hread.trans (hwritten.trans hstream.symm)

/-- The last pass stores the payload behind the pending bytes. -/
theorem absorbs_absorbTail (fits : data.length ≤ 128 - s.ctx.buflen.val) :
    Absorbs s.ctx (pendingBytes s.ctx ++ data) (absorbTail s data fits).ctx := by
  have hb := s.ctx.buflen.isLt
  have hk : interiorBlocks (pendingBytes s.ctx ++ data).length = 0 :=
    interiorBlocks_of_le (by rw [List.length_append, pendingBytes_length]; omega)
  constructor
  case chain => rw [hk]; rfl
  case counter => rw [hk]; rfl
  case pending => rw [hk, absorbTail_pendingBytes]; rfl
  case leftover =>
    intro j hj
    have hpast : s.ctx.buflen.val + data.length ≤ j.val := hj
    rw [if_pos hk]
    exact memWrite_getElem_of_outside _ _ _ j (.inr hpast)
  case f0 => rfl
  case f1 => rfl

/-- The block a filling pass compresses is the first one of the pending bytes followed by the payload. -/
theorem absorbBlock_buf {data : List Byte} (exceeds : 128 - s.ctx.buflen.val < data.length) :
    (absorbBlock s (data.take (128 - s.ctx.buflen.val))).ctx.buf = blockAt (pendingBytes s.ctx ++ data) 0 := by
  refine Vector.ext fun j hj => ?_
  have hstream := pendingBytes_append_getD s.ctx data ⟨j, hj⟩
  have hblock := getElem_blockAt (pendingBytes s.ctx ++ data) 0 ⟨j, hj⟩
  rw [Nat.mul_zero, Nat.zero_add] at hblock
  exact (memWrite_take_getElem s.ctx.buf exceeds ⟨j, hj⟩).trans (hstream.symm.trans hblock.symm)

theorem absorbBlock_h (chunk : List Byte) :
    (absorbBlock s chunk).ctx.h =
      compressAt s.ctx.h (absorbBlock s chunk).ctx.buf (absorbBlock s chunk).ctx.t.toNat s.ctx.f0 s.ctx.f1 := by
  rw [← compress_eq_compressAt]
  rfl

theorem absorbBlock_pendingBytes (chunk : List Byte) : pendingBytes (absorbBlock s chunk).ctx = [] := by
  rw [← List.length_eq_zero_iff, pendingBytes_length, absorbBlock_buflen]
  rfl

theorem drop_pendingBytes_append :
    (pendingBytes s.ctx ++ data).drop 128 = data.drop (128 - s.ctx.buflen.val) := by
  have hb : (pendingBytes s.ctx).length ≤ 128 := by have := s.ctx.buflen.isLt; rw [pendingBytes_length]; omega
  rw [List.drop_append, List.drop_of_length_le hb, List.nil_append, pendingBytes_length]

end

/-- The first block compressed, and then what is done with the rest, is what is done with the whole. -/
theorem Absorbs.of_first_block {c first c' : Context} {stream : List Byte} (hlong : 128 < stream.length)
    (hh : first.h = compressAt c.h (blockAt stream 0) (c.t.toNat + 128) c.f0 c.f1)
    (ht : first.t.toNat = c.t.toNat + 128) (hbuf : first.buf = blockAt stream 0)
    (hf0 : first.f0 = c.f0) (hf1 : first.f1 = c.f1) (h : Absorbs first (stream.drop 128) c') :
    Absorbs c stream c' := by
  have hk : interiorBlocks stream.length = interiorBlocks (stream.drop 128).length + 1 := by
    rw [interiorBlocks_of_gt hlong, List.length_drop]
  constructor
  case chain => rw [h.chain, hh, ht, hf0, hf1, chainAfter_succ_left, hk]
  case counter => rw [h.counter, ht, hk]; omega
  case pending => rw [h.pending, List.drop_drop, hk, Nat.mul_succ, Nat.add_comm]
  case leftover =>
    intro j hj
    rw [h.leftover j hj, hk, if_neg (Nat.succ_ne_zero _)]
    split
    next hzero => rw [hbuf, getElem_blockAt, hzero]
    next hne => rw [getD_drop]; congr 1; omega
  case f0 => rw [h.f0, hf0]
  case f1 => rw [h.f1, hf1]

/-- Accepted UPDATEs by the passes of their loop (R115): what holds where the payload fits, and where it exceeds the
room if it holds of the UPDATE of the rest, holds of every one. The induction is on the number of filling passes. -/
theorem update_induction
    {P : (data : List Byte) → (s : State) → s.phase = .absorbing →
      s.ctx.t.toNat + s.ctx.buflen.val + data.length ≤ 2 ^ 128 - 1 → Prop}
    (of_fits : ∀ data s hs h, data.length ≤ 128 - s.ctx.buflen.val → P data s hs h)
    (of_exceeds : ∀ data s hs h hs' h', 128 - s.ctx.buflen.val < data.length →
      P (data.drop (128 - s.ctx.buflen.val))
        (s.withCtx (absorbBlock s (data.take (128 - s.ctx.buflen.val))).ctx) hs' h' → P data s hs h)
    (data : List Byte) (s : State) (hs : s.phase = .absorbing)
    (h : s.ctx.t.toNat + s.ctx.buflen.val + data.length ≤ 2 ^ 128 - 1) : P data s hs h := by
  have hb := s.ctx.buflen.isLt
  induction hk : interiorBlocks (s.ctx.buflen.val + data.length) generalizing data s with
  | zero =>
    unfold interiorBlocks at hk
    exact of_fits data s hs h (by omega)
  | succ k ih =>
    have exceeds : 128 - s.ctx.buflen.val < data.length := by unfold interiorBlocks at hk; omega
    obtain ⟨ht, -⟩ := execUpdate_of_exceeds hs h exceeds
    let filled := s.withCtx (absorbBlock s (data.take (128 - s.ctx.buflen.val))).ctx
    have hfilled : filled.ctx.buflen.val = 0 := by rw [State.withCtx_ctx, absorbBlock_buflen, Fin.val_zero]
    have hrest : (data.drop (128 - s.ctx.buflen.val)).length = s.ctx.buflen.val + data.length - 128 := by
      rw [List.length_drop]
      omega
    have h' : filled.ctx.t.toNat + filled.ctx.buflen.val + (data.drop (128 - s.ctx.buflen.val)).length ≤
        2 ^ 128 - 1 := by
      rw [show filled.ctx.t.toNat = _ from ht]
      omega
    refine of_exceeds data s hs h hs h' exceeds (ih _ filled hs h' (by omega) ?_)
    rw [interiorBlocks_of_gt (by omega)] at hk
    rw [hfilled, Nat.zero_add, hrest]
    exact Nat.succ.inj hk

/-- What an accepted UPDATE leaves, whole. -/
theorem execUpdate_absorbs (data : List Byte) (s : State) (hs : s.phase = .absorbing)
    (h : s.ctx.t.toNat + s.ctx.buflen.val + data.length ≤ 2 ^ 128 - 1) :
    ∃ c, Absorbs s.ctx (pendingBytes s.ctx ++ data) c ∧
      execUpdate data s = .next
        { s with ctx := c, work := Transient.zero, response := some ⟨statusWord .absorbing s.fcode .ok, none⟩ } := by
  induction data, s, hs, h using update_induction with
  | of_fits data s hs h fits => exact ⟨_, absorbs_absorbTail s data fits, execUpdate_of_fits hs h fits⟩
  | of_exceeds data s hs h _ _ exceeds ih =>
    obtain ⟨ht, hrest⟩ := execUpdate_of_exceeds hs h exceeds
    obtain ⟨c, hc, hnext⟩ := ih
    refine ⟨c, ?_, hrest.trans hnext⟩
    have hbuf := absorbBlock_buf s exceeds
    have hlong : 128 < (pendingBytes s.ctx ++ data).length := by
      have hb := s.ctx.buflen.isLt
      rw [List.length_append, pendingBytes_length]
      omega
    rw [State.withCtx_ctx, absorbBlock_pendingBytes, List.nil_append, ← drop_pendingBytes_append] at hc
    exact .of_first_block hlong (by rw [absorbBlock_h, hbuf, ht]) ht hbuf (absorbBlock_f0 ..) (absorbBlock_f1 ..) hc

/-! ### Two payloads, one after the other (R124) -/

theorem memWrite_append (buf : Vector Byte 128) (a : Nat) (first second : List Byte) :
    memWrite (memWrite buf a first) (a + first.length) second = memWrite buf a (first ++ second) := by
  induction first generalizing buf a with
  | nil => rfl
  | cons b first ih =>
    rw [List.length_cons, Nat.add_comm first.length, ← Nat.add_assoc]
    exact ih ..

section
variable {s u : State} {first second : List Byte} {fits : first.length ≤ 128 - s.ctx.buflen.val}
  (hctx : u.ctx = (absorbTail s first fits).ctx)
include hctx

theorem buflen_after_absorbTail : u.ctx.buflen.val = s.ctx.buflen.val + first.length := by
  rw [hctx]
  rfl

/-- A payload that fits, and then one that fits behind it. -/
theorem absorbTail_after_absorbTail (fits' : second.length ≤ 128 - u.ctx.buflen.val)
    (whole : (first ++ second).length ≤ 128 - s.ctx.buflen.val) :
    (absorbTail u second fits').ctx = (absorbTail s (first ++ second) whole).ctx := by
  simp only [absorbTail, State.withCtx_ctx, hctx, Context.withBuflen_buf, Context.withBuf_buf,
    Context.withBuflen_buflen, memWrite_append, List.length_append, Nat.add_assoc]
  rfl

/-- A payload that fits, and then one that fills the buffer behind it. -/
theorem absorbBlock_after_absorbTail :
    (absorbBlock u (second.take (128 - u.ctx.buflen.val))).ctx =
      (absorbBlock s ((first ++ second).take (128 - s.ctx.buflen.val))).ctx := by
  have htake : (first ++ second).take (128 - s.ctx.buflen.val) =
      first ++ second.take (128 - u.ctx.buflen.val) := by
    rw [List.take_append, List.take_of_length_le fits, buflen_after_absorbTail hctx, Nat.sub_add_eq]
  rw [htake, absorbBlock_ctx, absorbBlock_ctx, ← memWrite_append, hctx]
  rfl

/-- After a first payload that fits, the second one is absorbed as the two together would have been. -/
theorem execUpdate_after_absorbTail (hs : s.phase = .absorbing) (hu : u.phase = .absorbing)
    (hfcode : u.fcode = s.fcode) (hpending : u.pending = s.pending) :
    execUpdate second u = execUpdate (first ++ second) s := by
  have hb := s.ctx.buflen.isLt
  have hlen : (first ++ second).length = first.length + second.length := List.length_append
  have hfill := buflen_after_absorbTail hctx
  have ht : u.ctx.t = s.ctx.t := by rw [hctx]; rfl
  by_cases h : s.ctx.t.toNat + s.ctx.buflen.val + (first ++ second).length ≤ 2 ^ 128 - 1
  · have h' : u.ctx.t.toNat + u.ctx.buflen.val + second.length ≤ 2 ^ 128 - 1 := by rw [ht]; omega
    by_cases whole : (first ++ second).length ≤ 128 - s.ctx.buflen.val
    · have fits' : second.length ≤ 128 - u.ctx.buflen.val := by omega
      rw [execUpdate_of_fits hu h' fits', execUpdate_of_fits hs h whole,
        absorbTail_after_absorbTail hctx fits' whole, hu, hs, hfcode, hpending]
    · obtain ⟨-, hrest⟩ := execUpdate_of_exceeds hs h (not_le.mp whole)
      obtain ⟨-, hrest'⟩ := execUpdate_of_exceeds hu h' (by omega)
      have hdrop : (first ++ second).drop (128 - s.ctx.buflen.val) = second.drop (128 - u.ctx.buflen.val) := by
        rw [List.drop_append, List.drop_of_length_le fits, List.nil_append, hfill, Nat.sub_add_eq]
      rw [hrest, hrest', hdrop]
      refine execUpdate_congr _ hu hs ?_ hfcode hpending
      rw [State.withCtx_ctx, State.withCtx_ctx, absorbBlock_after_absorbTail hctx]
  · have hover : 2 ^ 128 - 1 < u.ctx.t.toNat + u.ctx.buflen.val + second.length := by rw [ht]; omega
    rw [execUpdate_of_overflow hs (data := first ++ second) (Nat.lt_of_not_le h), execUpdate_of_overflow hu hover,
      hpending]

end

/-- An accepted UPDATE and a second one are the one UPDATE of both payloads. -/
theorem execUpdate_append (first : List Byte) (s : State) (hs : s.phase = .absorbing)
    (h : s.ctx.t.toNat + s.ctx.buflen.val + first.length ≤ 2 ^ 128 - 1) (second : List Byte) (t : State)
    (ht : execUpdate first s = .next t) : execUpdate second t = execUpdate (first ++ second) s := by
  induction first, s, hs, h using update_induction with
  | of_fits first s hs h fits =>
    rw [execUpdate_of_fits hs h fits] at ht
    cases ht
    exact execUpdate_after_absorbTail (fits := fits) rfl hs hs rfl rfl
  | of_exceeds first s hs h hs' h' exceeds ih =>
    obtain ⟨hcounter, hrest⟩ := execUpdate_of_exceeds hs h exceeds
    have hlen : (first ++ second).length = first.length + second.length := List.length_append
    have htake : (first ++ second).take (128 - s.ctx.buflen.val) = first.take (128 - s.ctx.buflen.val) :=
      List.take_append_of_le_length exceeds.le
    have hdrop : (first ++ second).drop (128 - s.ctx.buflen.val) = first.drop (128 - s.ctx.buflen.val) ++ second :=
      List.drop_append_of_le_length exceeds.le
    rw [ih (hrest.symm.trans ht)]
    by_cases hwhole : s.ctx.t.toNat + s.ctx.buflen.val + (first ++ second).length ≤ 2 ^ 128 - 1
    · obtain ⟨-, hrest'⟩ := execUpdate_of_exceeds hs hwhole (by omega)
      rw [hrest', htake, hdrop]
    · have hfilled : (absorbBlock s (first.take (128 - s.ctx.buflen.val))).ctx.buflen.val = 0 := by
        rw [absorbBlock_buflen, Fin.val_zero]
      have hover : 2 ^ 128 - 1 < (absorbBlock s (first.take (128 - s.ctx.buflen.val))).ctx.t.toNat +
          (absorbBlock s (first.take (128 - s.ctx.buflen.val))).ctx.buflen.val +
          (first.drop (128 - s.ctx.buflen.val) ++ second).length := by
        rw [hcounter, hfilled, ← hdrop, List.length_drop]
        have hb := s.ctx.buflen.isLt
        omega
      rw [execUpdate_of_overflow hs (data := first ++ second) (Nat.lt_of_not_le hwhole),
        execUpdate_of_overflow hs' hover]
      rfl

/-! ### The obligations -/

/-- Settles O26: `Absorbs`, written out. -/
theorem updateAbsorbsBlockStream : Obligations.UpdateAbsorbsBlockStream := by
  unfold Obligations.UpdateAbsorbsBlockStream
  intro data s hs h stream k
  obtain ⟨c, hc, hnext⟩ := execUpdate_absorbs data s hs h
  have hlen : stream.length = s.ctx.buflen.val + data.length := by rw [List.length_append, pendingBytes_length]
  have hk : interiorBlocks stream.length = k := congrArg interiorBlocks hlen
  refine ⟨c, hnext, ?_⟩
  rw [← hlen, ← hk]
  exact ⟨hc.chain, hc.counter, hc.fill, hc.buflen_pos, hc.pending, hc.leftover, hc.f0, hc.f1⟩

/-- Settles O28: `execUpdate_append`, for the state that the first UPDATE leaves. -/
theorem updateSplitEqualsWhole : Obligations.UpdateSplitEqualsWhole := by
  unfold Obligations.UpdateSplitEqualsWhole
  intro first second s hs h
  obtain ⟨c, -, hfirst⟩ := execUpdate_absorbs first s hs h
  have hwhole := execUpdate_append first s hs h second _ hfirst
  obtain ⟨t, hsecond, -⟩ := exec_responds (.update (first ++ second)) s
  simp only [runCommands, exec] at hsecond ⊢
  simp only [hfirst, hwhole, hsecond]

end Sys2Proof.Machine
end

section
/-! SUPPORT. A whole message (41_streaming.md R120 to R125). UPDATEs one after another are one UPDATE of their payloads
together, what that one leaves is `Absorbs`, and FINAL compresses the last block of it, padded with zeros. -/

namespace Sys2Proof.Machine

/-! ### FINAL, whole (R120 to R122) -/

/-- FINAL leaves the reset state but for fcode, the host's queue and the response: the rest of the state before it
shows in the digest alone. -/
theorem execFinal_ends {s : State} (hs : s.phase = .absorbing) :
    execFinal s = .next
      { State.reset with
        fcode := s.fcode, pending := s.pending
        response := some ⟨statusWord .idle s.fcode .ok,
          some (digestOf (compressAt s.ctx.h (finalContext s.ctx).buf (finalContext s.ctx).t.toNat
            (~~~ 0) s.ctx.f1))⟩ } := by
  rw [execFinal_of_absorbing hs, ← compress_eq_compressAt]
  rfl

/-- FINAL in ABSORBING looks at the context, fcode and the host's queue alone. -/
theorem execFinal_congr {s s' : State} (hs : s.phase = .absorbing) (hs' : s'.phase = .absorbing)
    (hctx : s.ctx = s'.ctx) (hfcode : s.fcode = s'.fcode) (hpending : s.pending = s'.pending) :
    execFinal s = execFinal s' := by
  rw [execFinal_ends hs, execFinal_ends hs', hctx, hfcode, hpending]

/-- The block FINAL compresses is the pending bytes, padded with zeros. -/
theorem finalContext_buf (c : Context) : (finalContext c).buf = blockAt (pendingBytes c) 0 := by
  have hb := c.buflen.isLt
  refine Vector.ext fun j hj => ?_
  have hpadded := memWrite_zeros_getElem c.buf (n := c.buflen.val) (by omega) ⟨j, hj⟩
  have hblock := getElem_blockAt (pendingBytes c) 0 ⟨j, hj⟩
  have hpending := pendingBytes_append_getD c [] ⟨j, hj⟩
  rw [Nat.mul_zero, Nat.zero_add] at hblock
  rw [List.append_nil, List.getD_nil] at hpending
  refine hpadded.trans ((hblock.trans hpending).trans ?_).symm
  simp only [← not_lt, ite_not]

theorem blockAt_drop_mul (bytes : List Byte) (k : Nat) : blockAt (bytes.drop (128 * k)) 0 = blockAt bytes k := by
  simp only [blockAt, getD_drop, Nat.mul_zero, Nat.zero_add]

/-! ### The digest (R123) -/

/-- The context INIT leaves (R114). -/
def initialContext : Context := Context.zero.withH initialChaining

theorem initialContext_t : initialContext.t.toNat = 0 := by decide

theorem initialContext_buflen : initialContext.buflen.val = 0 := rfl

theorem initialContext_pendingBytes : pendingBytes initialContext = [] := by decide

/-- After INIT any message of at most 2^128 − 1 bytes is accepted (R144). -/
theorem initialContext_room {n : Nat} (h : n ≤ 2 ^ 128 - 1) :
    initialContext.t.toNat + initialContext.buflen.val + n ≤ 2 ^ 128 - 1 := by
  rw [initialContext_t, initialContext_buflen]
  omega

/-- INIT outside FAULTED starts a message (R114). -/
theorem execInit_starts {s : State} (hs : s.phase ≠ .faulted) :
    ∃ t, execInit s = .next t ∧ t.phase = .absorbing ∧ t.ctx = initialContext ∧ t.fcode = s.fcode ∧
      t.pending = s.pending :=
  ⟨_, execInit_of_not_faulted hs, rfl, rfl, rfl, rfl⟩

/-- FINAL answers the digest of the bytes that have come in since INIT. -/
theorem execFinal_of_absorbs {s : State} {message : List Byte} (hs : s.phase = .absorbing)
    (h : Absorbs initialContext message s.ctx) (hlen : message.length ≤ 2 ^ 128 - 1) :
    execFinal s = .next
      { State.reset with
        fcode := s.fcode, pending := s.pending
        response := some ⟨statusWord .idle s.fcode .ok, some (hashOf message)⟩ } := by
  have htotal : s.ctx.t.toNat + s.ctx.buflen.val = message.length := by
    rw [h.total, initialContext_t, Nat.zero_add]
  have hcounter : (finalContext s.ctx).t.toNat = message.length := by
    have hb := s.ctx.buflen.isLt
    rw [← htotal]
    exact counterAdd_t_toNat s.ctx (by omega) (by omega)
  have hchain : s.ctx.h = chainAfter initialChaining 0 0 0 message (interiorBlocks message.length) := by
    rw [h.chain, initialContext_t]
    rfl
  have hf1 : s.ctx.f1 = 0 := h.f1
  rw [execFinal_ends hs, finalContext_buf, h.pending, blockAt_drop_mul, hcounter, hchain, hf1]
  rfl

/-! ### A message in pieces (R124) -/

theorem runCommands_cons {i : Instr} {s t : State} (is : List Instr) (h : exec i s = .next t) :
    runCommands (i :: is) s = runCommands is t := by
  rw [runCommands, h]

/-- UPDATEs and FINAL are the one UPDATE of all their payloads and FINAL. -/
theorem runCommands_updates_final (pieces : List (List Byte)) {s t : State} (hs : s.phase = .absorbing)
    (h : s.ctx.t.toNat + s.ctx.buflen.val + pieces.flatten.length ≤ 2 ^ 128 - 1)
    (ht : execUpdate pieces.flatten s = .next t) :
    runCommands (pieces.map Instr.update ++ [.final]) s = execFinal t := by
  induction pieces generalizing s with
  | nil =>
    rw [List.flatten_nil] at h ht
    rw [execUpdate_of_fits hs h (Nat.zero_le _)] at ht
    cases ht
    have hfinal := execFinal_ends hs
    exact (runCommands_cons (i := .final) [] hfinal).trans (hfinal.symm.trans (execFinal_congr hs hs rfl rfl rfl))
  | cons piece pieces ih =>
    rw [List.flatten_cons, List.length_append] at h
    have hpiece : s.ctx.t.toNat + s.ctx.buflen.val + piece.length ≤ 2 ^ 128 - 1 := by omega
    obtain ⟨c, hc, hnext⟩ := execUpdate_absorbs piece s hs hpiece
    have htotal := hc.total
    rw [List.length_append, pendingBytes_length] at htotal
    have hrest : c.t.toNat + c.buflen.val + pieces.flatten.length ≤ 2 ^ 128 - 1 := by omega
    rw [List.map_cons, List.cons_append, runCommands_cons (i := .update piece) _ hnext]
    exact ih hs hrest ((execUpdate_append piece s hs hpiece pieces.flatten _ hnext).trans ht)

/-- INIT, UPDATEs and FINAL answer the digest of the payloads together, and leave the engine wiped. -/
theorem runCommands_message (pieces : List (List Byte)) {s : State} (hs : s.phase ≠ .faulted)
    (hlen : pieces.flatten.length ≤ 2 ^ 128 - 1) :
    runCommands (.init :: (pieces.map Instr.update ++ [.final])) s = .next
      { State.reset with
        fcode := s.fcode, pending := s.pending
        response := some ⟨statusWord .idle s.fcode .ok, some (hashOf pieces.flatten)⟩ } := by
  obtain ⟨u, hinit, hu, hctx, hfcode, hpending⟩ := execInit_starts hs
  have hbound := hctx ▸ initialContext_room hlen
  obtain ⟨c, hc, hupdate⟩ := execUpdate_absorbs pieces.flatten u hu hbound
  rw [hctx, initialContext_pendingBytes, List.nil_append] at hc
  rw [runCommands_cons (i := .init) _ hinit, runCommands_updates_final pieces hu hbound hupdate, ← hfcode, ← hpending]
  exact execFinal_of_absorbs hu hc hlen

/-- The digest of no bytes is one compression of the zero block (R125). -/
theorem hashOf_nil :
    hashOf [] = digestOf (compress initialChaining (Vector.replicate 128 0) 0 0 (~~~ 0) 0) := by
  have hblock : blockAt [] 0 = Vector.replicate 128 0 := by
    refine Vector.ext fun j hj => ?_
    simp [blockAt]
  rw [← hblock]
  rfl

/-! ### The obligations -/

/-- Settles O30: the pieces as one payload, absorbed whole, and FINAL. -/
theorem digestOfPieces : Obligations.DigestOfPieces := by
  unfold Obligations.DigestOfPieces
  exact fun pieces s hs hlen => ⟨_, runCommands_message pieces hs hlen, rfl⟩

/-- Settles O31: `n` empty pieces together are empty. -/
theorem emptyMessageIsOneZeroBlock : Obligations.EmptyMessageIsOneZeroBlock := by
  unfold Obligations.EmptyMessageIsOneZeroBlock
  intro n s hs
  have hflat : (List.replicate n ([] : List Byte)).flatten = [] := List.flatten_replicate_nil
  have hrun := runCommands_message (List.replicate n []) hs (by rw [hflat]; exact Nat.zero_le _)
  rw [hflat, hashOf_nil, List.map_replicate] at hrun
  exact ⟨_, hrun, rfl⟩

end Sys2Proof.Machine
end

section
/-! SUPPORT. What a command and a step can do, each said once. `Refuses`, `Executes` and `Steps` list the next states
case by case; every claim about all steps is read off them (10_state.md R28, R29, R37; 60_exceptions.md R145 to
R148). -/

namespace Sys2Proof.Machine

/-! ### The next states -/

/-- A command is not performed: in FAULTED it is answered HALTED (R146), elsewhere it is fault entry (R145). -/
inductive Refuses (s : State) : State → Prop
  | halted (h : s.phase = .faulted) : Refuses s (haltedState s)
  | fault (h : s.phase ≠ .faulted) (code : FaultCode) : Refuses s (faultedState (faultCode code) s.pending)

/-- The next states of an instruction: it is refused, or completes (R114, R115, R120). -/
inductive Executes (s : State) : Instr → State → Prop
  | refused {i : Instr} {t : State} (h : Refuses s t) : Executes s i t
  | init (h : s.phase ≠ .faulted) :
      Executes s .init (respond .ok none ((s.withCtx initialContext).withPhase .absorbing))
  | update {data : List Byte} {c : Context} (hs : s.phase = .absorbing)
      (h : s.ctx.t.toNat + s.ctx.buflen.val + data.length ≤ 2 ^ 128 - 1)
      (hc : Absorbs s.ctx (pendingBytes s.ctx ++ data) c) :
      Executes s (.update data)
        { s with ctx := c, work := Transient.zero, response := some ⟨statusWord .absorbing s.fcode .ok, none⟩ }
  | final (hs : s.phase = .absorbing) (digest : List Byte) :
      Executes s .final
        { State.reset with
          fcode := s.fcode, pending := s.pending, response := some ⟨statusWord .idle s.fcode .ok, some digest⟩ }

/-- The next states of a step, by the host's next event. -/
inductive Steps (s : State) : State → Prop
  | waits (h : s.pending = []) : Steps s s
  | resets {rest : List HostEvent} (h : s.pending = .reset :: rest) : Steps s { State.reset with pending := rest }
  | illegal {cw : CmdWord} {data : List Byte} {rest : List HostEvent} {t : State}
      (h : s.pending = .command cw data :: rest) (ht : Refuses (s.withPending rest) t) : Steps s t
  | command {cw : CmdWord} {data : List Byte} {rest : List HostEvent} {i : Instr} {t : State}
      (h : s.pending = .command cw data :: rest) (hi : encode i = (cw, data))
      (ht : Executes (s.withPending rest) i t) : Steps s t

/-! ### The model does what they say -/

theorem refuses_raiseFault {s : State} (h : s.phase ≠ .faulted) (code : FaultCode) :
    Refuses s (raiseFault code s) := by
  rw [raiseFault_eq_faultedState]
  exact .fault h code

theorem refuses_answerHalted {s : State} (h : s.phase = .faulted) : Refuses s (answerHalted s) := by
  rw [answerHalted_eq_haltedState h]
  exact .halted h

theorem refuses_illegalCommand (s : State) : Refuses s (illegalCommand s) := by
  unfold illegalCommand
  split
  next h => exact refuses_answerHalted h
  next h => exact refuses_raiseFault h _

theorem exec_executes (i : Instr) (s : State) : ∃ t, exec i s = .next t ∧ Executes s i t := by
  cases i with
  | init =>
    obtain ⟨hs, h⟩ | ⟨hs, h⟩ := execInit_cases s
    · exact ⟨_, h, .refused (refuses_answerHalted hs)⟩
    · exact ⟨_, h, .init hs⟩
  | update data =>
    obtain ⟨hs, h⟩ | ⟨hs, h⟩ | ⟨hs, -, h⟩ | ⟨hs, ho, -⟩ := execUpdate_cases data s
    · exact ⟨_, h, .refused (refuses_answerHalted hs)⟩
    · exact ⟨_, h, .refused (refuses_raiseFault (by simp [hs]) _)⟩
    · exact ⟨_, h, .refused (refuses_raiseFault (by simp [hs]) _)⟩
    · have hle := not_lt.mp (of_decide_eq_false ho)
      obtain ⟨c, hc, h⟩ := execUpdate_absorbs data s hs hle
      exact ⟨_, h, .update hs hle hc⟩
  | final =>
    obtain ⟨hs, h⟩ | ⟨hs, h⟩ | ⟨hs, -⟩ := execFinal_cases s
    · exact ⟨_, h, .refused (refuses_answerHalted hs)⟩
    · exact ⟨_, h, .refused (refuses_raiseFault (by simp [hs]) _)⟩
    · exact ⟨_, execFinal_ends hs, .final hs _⟩

theorem step_steps (s : State) : ∃ t, step s = .next t ∧ Steps s t := by
  obtain ⟨hp, h⟩ | ⟨rest, hp, h⟩ | ⟨cw, data, rest, e, hp, -, h⟩ | ⟨cw, data, rest, i, hp, hi, h⟩ := step_cases s
  · exact ⟨_, h, .waits hp⟩
  · exact ⟨_, h, .resets hp⟩
  · exact ⟨_, h, .illegal hp (refuses_illegalCommand _)⟩
  · obtain ⟨t, ht, hexec⟩ := exec_executes i (s.withPending rest)
    exact ⟨t, h.trans ht, .command hp (encode_of_decode_eq_ok hi) hexec⟩

/-- A step is one of the cases of `Steps`. -/
theorem steps_of_step {s t : State} (h : step s = .next t) : Steps s t := by
  obtain ⟨t', ht', hsteps⟩ := step_steps s
  cases h.symm.trans ht'
  exact hsteps

/-! ### One event and its effect (R73, R146) -/

theorem step_of_command {s : State} {cw : CmdWord} {data : List Byte} {rest : List HostEvent} {i : Instr}
    (hs : s.pending = .command cw data :: rest) (hi : decode cw data = .ok i) :
    step s = exec i (s.withPending rest) := by
  obtain ⟨e, he, -⟩ | ⟨i', hi', h⟩ := step_command_cases hs
  · rw [he] at hi
    cases hi
  · cases hi.symm.trans hi'
    exact h

theorem step_of_illegal {s : State} {cw : CmdWord} {data : List Byte} {rest : List HostEvent}
    (hs : s.pending = .command cw data :: rest) (he : ∃ e, decode cw data = .error e) :
    step s = .next (illegalCommand (s.withPending rest)) := by
  obtain ⟨e, -, h⟩ | ⟨i, hi, -⟩ := step_command_cases hs
  · exact h
  · obtain ⟨e, he⟩ := he
    rw [he] at hi
    cases hi

theorem step_of_reset {s : State} {rest : List HostEvent} (hs : s.pending = .reset :: rest) :
    step s = .next { State.reset with pending := rest } := by
  rw [step, hs]
  rfl

theorem step_of_no_event {s : State} (hs : s.pending = []) : step s = .next s := by
  rw [step, hs]

theorem exec_of_faulted (i : Instr) {s : State} (hs : s.phase = .faulted) : exec i s = .next (haltedState s) := by
  rw [← answerHalted_eq_haltedState hs]
  cases i with
  | init => exact if_pos hs
  | update data => exact if_pos hs
  | final => exact if_pos hs

/-- In FAULTED every transaction is answered HALTED, legal or not (R146). -/
theorem step_command_of_faulted {s : State} {cw : CmdWord} {data : List Byte} {rest : List HostEvent}
    (hs : s.phase = .faulted) (hp : s.pending = .command cw data :: rest) :
    step s = .next (haltedState (s.withPending rest)) := by
  have hs' : (s.withPending rest).phase = .faulted := hs
  obtain ⟨e, -, h⟩ | ⟨i, -, h⟩ := step_command_cases hp
  · rw [h, illegalCommand, if_pos hs', answerHalted_eq_haltedState hs']
  · rw [h, exec_of_faulted i hs']

theorem run_succ {s t : State} (k : Nat) (h : step s = .next t) :
    Host.Core.run core (k + 1) s = Host.Core.run core k t := by
  have hcore : core.step s = .next t := h
  simp only [Host.Core.run, hcore]

/-! ### The port (R60, R160) -/

theorem Refuses.port {s t : State} (h : Refuses s t) : t.pending = s.pending ∧ t.response.isSome = true := by
  cases h with
  | halted _ => exact ⟨rfl, rfl⟩
  | fault _ _ => exact ⟨rfl, rfl⟩

theorem Executes.port {i : Instr} {s t : State} (h : Executes s i t) :
    t.pending = s.pending ∧ t.response.isSome = true := by
  cases h with
  | refused h => exact h.port
  | init _ => exact ⟨rfl, rfl⟩
  | update _ _ _ => exact ⟨rfl, rfl⟩
  | final _ _ => exact ⟨rfl, rfl⟩

/-! ### Commands at the port (R52, R73) -/

/-- What a command does, it does whatever the host has still to do. -/
theorem exec_withPending (i : Instr) (s : State) (es : List HostEvent) :
    ∃ t, exec i s = .next t ∧ exec i (s.withPending es) = .next (t.withPending es) := by
  by_cases hf : s.phase = .faulted
  · exact ⟨_, exec_of_faulted i hf, exec_of_faulted (s := s.withPending es) i hf⟩
  cases i with
  | init => exact ⟨_, execInit_of_not_faulted hf, execInit_of_not_faulted (s := s.withPending es) hf⟩
  | update data =>
    cases hs : s.phase with
    | faulted => exact absurd hs hf
    | idle => exact ⟨_, execUpdate_of_idle data hs, execUpdate_of_idle (s := s.withPending es) data hs⟩
    | absorbing =>
      by_cases h : s.ctx.t.toNat + s.ctx.buflen.val + data.length ≤ 2 ^ 128 - 1
      · have hctx := absorbLoop_ctx_congr (data.length + 1) (s := s.withPending es) (s' := s) data rfl
        refine ⟨_, execUpdate_accepted hs h, ?_⟩
        rw [exec, execUpdate_accepted (s := s.withPending es) hs h, hctx]
        rfl
      · have hover := Nat.lt_of_not_le h
        exact ⟨_, execUpdate_of_overflow hs hover, execUpdate_of_overflow (s := s.withPending es) hs hover⟩
  | final =>
    cases hs : s.phase with
    | faulted => exact absurd hs hf
    | idle => exact ⟨_, execFinal_of_idle hs, execFinal_of_idle (s := s.withPending es) hs⟩
    | absorbing => exact ⟨_, execFinal_ends hs, execFinal_ends (s := s.withPending es) hs⟩

/-- As many steps as there are commands at the port perform them one after another. -/
theorem run_port (is : List Instr) {s : State} {rest : List HostEvent}
    (hs : s.pending = is.map (fun i => HostEvent.command (encode i).1 (encode i).2) ++ rest) :
    Host.Core.run core is.length s = runCommands is (s.withPending rest) := by
  induction is generalizing s with
  | nil =>
    obtain ⟨ctx, work, phase, fcode, pending, response⟩ := s
    cases hs
    rfl
  | cons i is ih =>
    rw [List.map_cons, List.cons_append] at hs
    let u := s.withPending (is.map (fun i => HostEvent.command (encode i).1 (encode i).2) ++ rest)
    obtain ⟨t, ht, hrest⟩ := exec_withPending i u rest
    have hport : t.pending = u.pending := by
      obtain ⟨t', ht', hexec⟩ := exec_executes i u
      cases ht.symm.trans ht'
      obtain ⟨hpending, -⟩ := hexec.port
      exact hpending
    have hstep := (step_of_command hs (decode_encode i)).trans ht
    exact (run_succ _ hstep).trans ((ih hport).trans (runCommands_cons is hrest).symm)

/-! ### The invariant (R37) -/

theorem inv_faultedState (code : FaultCode) (es : List HostEvent) : (faultedState (faultCode code) es).Inv :=
  ⟨rfl, nofun, nofun, fun _ => ⟨rfl, faultCode_eq_or code⟩⟩

theorem inv_reset : State.reset.Inv := ⟨rfl, fun _ => ⟨rfl, rfl⟩, nofun, nofun⟩

theorem Refuses.inv {s t : State} (h : Refuses s t) (hinv : s.Inv) : t.Inv := by
  cases h with
  | halted _ => exact hinv
  | fault _ code => exact inv_faultedState code _

theorem State.Inv.fcode_eq_zero {s : State} (hinv : s.Inv) (hs : s.phase ≠ .faulted) : s.fcode = 0x00 := by
  obtain ⟨-, hidle, habsorbing, -⟩ := hinv
  cases hp : s.phase with
  | idle =>
    obtain ⟨-, hfcode⟩ := hidle hp
    exact hfcode
  | absorbing =>
    obtain ⟨-, -, -, -, -, hfcode⟩ := habsorbing hp
    exact hfcode
  | faulted => exact absurd hp hs

/-- Between commands the blocks compressed are whole ones, and once there are any the last block is still pending. -/
theorem inv_of_absorbs {s t : State} {data : List Byte} (hinv : s.Inv) (hs : s.phase = .absorbing)
    (h : s.ctx.t.toNat + s.ctx.buflen.val + data.length ≤ 2 ^ 128 - 1)
    (hc : Absorbs s.ctx (pendingBytes s.ctx ++ data) t.ctx)
    (ht : t.work = Transient.zero ∧ t.phase = .absorbing ∧ t.fcode = s.fcode) : t.Inv := by
  obtain ⟨hwork, hphase, hfcode⟩ := ht
  obtain ⟨-, -, habsorbing, -⟩ := hinv
  obtain ⟨hf0, hf1, hblocks, hlast, -, hzero⟩ := habsorbing hs
  have hlen : (pendingBytes s.ctx ++ data).length = s.ctx.buflen.val + data.length := by
    rw [List.length_append, pendingBytes_length]
  have hcounter := hc.counter
  have hfill := hc.fill
  have htotal := hc.total
  have hpos := hc.buflen_pos
  refine ⟨hwork, by simp [hphase], fun _ => ⟨hc.f0.trans hf0, hc.f1.trans hf1, by omega, fun hsome => hpos ?_, by omega,
    hfcode.trans hzero⟩, by simp [hphase]⟩
  by_cases hold : 0 < s.ctx.t.toNat
  · have := hlast hold
    omega
  · omega

theorem Executes.inv {i : Instr} {s t : State} (h : Executes s i t) (hinv : s.Inv) : t.Inv := by
  cases h with
  | refused h => exact h.inv hinv
  | init hs =>
    have ⟨hwork, _⟩ := hinv
    refine ⟨hwork, nofun, fun _ => ⟨rfl, rfl, ?_, ?_, ?_, hinv.fcode_eq_zero hs⟩, nofun⟩ <;>
      simp [initialContext_t, initialContext_buflen]
  | update hs h hc => exact inv_of_absorbs hinv hs h hc ⟨rfl, hs, rfl⟩
  | final hs digest =>
    exact ⟨rfl, fun _ => ⟨rfl, hinv.fcode_eq_zero (by simp [hs])⟩, nofun, nofun⟩

theorem Steps.inv {s t : State} (h : Steps s t) (hinv : s.Inv) : t.Inv := by
  cases h with
  | waits _ => exact hinv
  | resets _ => exact inv_reset
  | illegal _ ht => exact ht.inv hinv
  | command _ _ ht => exact ht.inv hinv

/-! ### The second flag word (R25) -/

theorem Refuses.f1 {s t : State} (h : Refuses s t) : t.ctx.f1 = s.ctx.f1 ∨ t.ctx.f1 = 0 := by
  cases h with
  | halted _ => exact .inl rfl
  | fault _ _ => exact .inr rfl

theorem Executes.f1 {i : Instr} {s t : State} (h : Executes s i t) : t.ctx.f1 = s.ctx.f1 ∨ t.ctx.f1 = 0 := by
  cases h with
  | refused h => exact h.f1
  | init _ => exact .inr rfl
  | update _ _ hc => exact .inl hc.f1
  | final _ _ => exact .inr rfl

/-! ### The lifecycle and the fault register (R28, R29) -/

/-- How a command moves phase and fcode, from `phase` and `fcode`: into ABSORBING and into IDLE only where it is the
command `legal` allows for it, and fcode by fault entry alone. -/
structure MovesByRule (legal : Instr → Prop) (phase : Phase) (fcode : BitVec 8) (t : State) : Prop where
  absorbing : t.phase = .absorbing → phase = .absorbing ∨ (phase = .idle ∧ legal .init)
  idle : t.phase = .idle → phase = .idle ∨ (phase = .absorbing ∧ legal .final)
  fault : t.fcode ≠ fcode →
    phase ≠ .faulted ∧ t.phase = .faulted ∧ (t.fcode = 0x01 ∨ t.fcode = 0x02 ∨ t.fcode = 0x03)

theorem Refuses.movesByRule {s t : State} (h : Refuses s t) (legal : Instr → Prop) :
    MovesByRule legal s.phase s.fcode t := by
  cases h with
  | halted _ => exact ⟨.inl, .inl, fun h => absurd rfl h⟩
  | fault h code => exact ⟨nofun, nofun, fun _ => ⟨h, rfl, faultCode_eq_or code⟩⟩

theorem Executes.movesByRule {legal : Instr → Prop} {i : Instr} {s t : State} (h : Executes s i t) (hi : legal i) :
    MovesByRule legal s.phase s.fcode t := by
  cases h with
  | refused h => exact h.movesByRule legal
  | init hs =>
    refine ⟨fun _ => ?_, nofun, fun h => absurd rfl h⟩
    cases hp : s.phase with
    | idle => exact .inr ⟨rfl, hi⟩
    | absorbing => exact .inl rfl
    | faulted => exact absurd hp hs
  | update hs _ _ => exact ⟨fun _ => .inl hs, .inl, fun h => absurd rfl h⟩
  | final hs _ => exact ⟨nofun, fun _ => .inr ⟨hs, hi⟩, fun h => absurd rfl h⟩

/-- The host's next event is the transaction of `i`. -/
def State.NextIs (s : State) (i : Instr) : Prop :=
  s.pending.head? = some (.command (encode i).1 (encode i).2)

theorem State.NextIs.init {s : State} (h : s.NextIs .init) : s.pending.head? = some (.command 0x00000001 []) := h

theorem State.NextIs.final {s : State} (h : s.NextIs .final) : s.pending.head? = some (.command 0x00000003 []) := h

theorem Steps.movesByRule {s t : State} (h : Steps s t) :
    (∃ rest, s.pending = .reset :: rest ∧ t = { State.reset with pending := rest }) ∨
    MovesByRule s.NextIs s.phase s.fcode t := by
  cases h with
  | waits _ => exact .inr ⟨.inl, .inl, fun h => absurd rfl h⟩
  | resets h => exact .inl ⟨_, h, rfl⟩
  | illegal _ ht => exact .inr (ht.movesByRule _)
  | @command cw data rest i t h hi ht =>
    have hnext : s.NextIs i := by rw [State.NextIs, h, hi]; rfl
    exact .inr (ht.movesByRule hnext)

/-! ### The obligations -/

/-- Settles O14: each case of `Steps` keeps the invariant; for an accepted UPDATE by what `Absorbs` says. -/
theorem stepKeepsInvariant : Obligations.StepKeepsInvariant := by
  unfold Obligations.StepKeepsInvariant
  exact fun s t hinv h => (steps_of_step h).inv hinv

/-- Settles O13. -/
theorem resetSatisfiesInvariant : Obligations.ResetSatisfiesInvariant := inv_reset

/-- Settles O5: the fourth case of `step_cases`. -/
theorem stepRunsDecodedCommand : Obligations.StepRunsDecodedCommand := by
  unfold Obligations.StepRunsDecodedCommand
  exact fun s cw data rest i hs hi => step_of_command hs hi

/-- Settles O6: taking the placed command from the port leaves the port as it was before the placing. -/
theorem placedCommandRunsNext : Obligations.PlacedCommandRunsNext := by
  unfold Obligations.PlacedCommandRunsNext
  intro s nbits w i h
  refine step_of_command (s := s.withFetchWord nbits w) (rest := s.pending) rfl ?_
  unfold decodeTableWord at h
  split at h
  next hi => rw [hi, Option.some.inj h]
  next => cases h

/-- Settles O10: the registers of the reset state, and the three tables as the spec lists them. -/
theorem resetValues : Obligations.ResetValues := by
  unfold Obligations.ResetValues
  refine ⟨?_, ?_, rfl, rfl, ?_, rfl, rfl, rfl, ?_, ?_, rfl, rfl, rfl, rfl, ?_, rfl⟩ <;> decide

/-- Settles O11. -/
theorem resetSignalResets : Obligations.ResetSignalResets := by
  unfold Obligations.ResetSignalResets
  exact fun s rest hs => ⟨step_of_reset hs, rfl⟩

/-- Settles O12. -/
theorem stepWaitsForCommand : Obligations.StepWaitsForCommand := by
  unfold Obligations.StepWaitsForCommand
  exact fun s hs => step_of_no_event hs

/-- Settles O27: the empty payload fits, the last pass writes nothing, and the transient state was zero already. -/
theorem updateEmptyChangesNothing : Obligations.UpdateEmptyChangesNothing := by
  unfold Obligations.UpdateEmptyChangesNothing
  intro s hinv hs
  obtain ⟨hwork, -, habsorbing, -⟩ := hinv
  obtain ⟨-, -, -, -, hbound, hfcode⟩ := habsorbing hs
  have hstatus : statusWord .absorbing s.fcode .ok = 0x00000001 := by rw [hfcode]; decide
  rw [← hstatus, exec, execUpdate_of_fits (data := []) hs hbound (Nat.zero_le _), ← hwork]
  rfl

/-- Settles O32: what FINAL and fault entry leave is written without the context and the transient state. -/
theorem nothingOfMessageIsLeft : Obligations.NothingOfMessageIsLeft := by
  unfold Obligations.NothingOfMessageIsLeft
  intro s₁ s₂ h₁ h₂ hfcode hpending
  refine ⟨⟨_, _, execFinal_ends h₁, execFinal_ends h₂, by rw [hfcode, hpending]⟩, fun data₁ data₂ hover₁ hover₂ => ?_,
    fun cw₁ cw₂ data₁ data₂ rest he₁ he₂ => ⟨faultedState 0x01 rest, ?_, ?_⟩⟩
  · exact ⟨_, execUpdate_of_overflow h₁ hover₁, hpending ▸ execUpdate_of_overflow h₂ hover₂⟩
  · rw [step_of_illegal rfl he₁, illegalCommand_of_not_faulted (by simp [h₁])]
    rfl
  · rw [step_of_illegal rfl he₂, illegalCommand_of_not_faulted (by simp [h₂])]
    rfl

/-- Settles O36. -/
theorem faultedRefusesEverythingButReset : Obligations.FaultedRefusesEverythingButReset := by
  unfold Obligations.FaultedRefusesEverythingButReset
  exact fun s hs => ⟨fun i => exec_of_faulted i hs, fun _ _ _ hp => step_command_of_faulted hs hp,
    fun _ hp => step_of_reset hp⟩

/-- Settles O37, by induction on the number of steps: one of them waits, or answers HALTED. -/
theorem faultedLastsUntilReset : Obligations.FaultedLastsUntilReset := by
  unfold Obligations.FaultedLastsUntilReset
  intro k
  induction k with
  | zero => exact fun s hs _ => ⟨s, rfl, hs, rfl, rfl, rfl, rfl⟩
  | succ k ih =>
    intro s hs hno
    cases hp : s.pending with
    | nil =>
      rw [run_succ k (step_of_no_event hp)]
      simpa [hp] using ih s hs hno
    | cons e rest =>
      rw [hp] at hno
      cases e with
      | reset => exact absurd rfl (hno _ List.mem_cons_self)
      | command cw data =>
        rw [run_succ k (step_command_of_faulted hs hp)]
        exact ih (haltedState (s.withPending rest)) hs fun e he => hno e (List.mem_cons_of_mem _ he)

/-- Settles O40: the four cases of `exec_cases`. -/
theorem faultsArePrecise : Obligations.FaultsArePrecise := by
  unfold Obligations.FaultsArePrecise
  intro i s t ht
  obtain ⟨hs, h⟩ | ⟨hs, -, h⟩ | ⟨_, hs, -, -, h⟩ | ⟨-, -, -, d, u, h, hphase, hfcode⟩ := exec_cases i s <;>
    cases ht.symm.trans h
  · exact .inr (.inr ⟨hs, answerHalted_eq_haltedState hs⟩)
  · exact .inr (.inl ⟨by simp [hs], .inl (raiseFault_eq_faultedState .sequence s)⟩)
  · exact .inr (.inl ⟨by simp [hs], .inr (raiseFault_eq_faultedState .counterOverflow s)⟩)
  · exact .inl ⟨_, respond_response .., statusWord_result_field .., hphase, hfcode⟩

/-- Settles O41: the event each case of `Steps` takes, and the response it leaves. -/
theorem everyStepAnswersOneEvent : Obligations.EveryStepAnswersOneEvent := by
  unfold Obligations.EveryStepAnswersOneEvent
  intro s
  obtain ⟨t, ht, hsteps⟩ := step_steps s
  refine ⟨t, ht, ?_⟩
  cases hsteps with
  | waits h => simp [h]
  | resets h => simp [h, State.reset]
  | illegal h ht => simpa [h] using ht.port
  | command h _ ht => simpa [h] using ht.port

/-- Settles O42: a step is the reset, or moves phase and fcode by `MovesByRule`. -/
theorem lifecycleMovesOnlyByRule : Obligations.LifecycleMovesOnlyByRule := by
  unfold Obligations.LifecycleMovesOnlyByRule
  intro s t h
  obtain ⟨rest, hreset, rfl⟩ | ⟨habsorbing, hidle, hfault⟩ := (steps_of_step h).movesByRule
  · have hhead : s.pending.head? = some .reset := by rw [hreset, List.head?_cons]
    exact ⟨nofun, fun _ => .inr (.inl hhead), fun _ => .inl ⟨hhead, rfl⟩⟩
  · refine ⟨fun ht => ?_, fun ht => ?_, fun hf => .inr (hfault hf)⟩
    · exact (habsorbing ht).imp_right fun ⟨hs, hnext⟩ => ⟨hs, hnext.init⟩
    · exact (hidle ht).imp_right fun ⟨hs, hnext⟩ => .inr ⟨hs, hnext.final⟩

/-- Settles O43. -/
theorem secondFlagStaysZero : Obligations.SecondFlagStaysZero := by
  unfold Obligations.SecondFlagStaysZero
  intro s t h
  cases steps_of_step h with
  | waits _ => exact .inl rfl
  | resets _ => exact .inr rfl
  | illegal _ ht => exact ht.f1
  | command _ _ ht => exact ht.f1

/-- Settles O44: the engine `k` is replaced by what its own step leaves, and the step never stops. -/
theorem enginesAreIndependent : Obligations.EnginesAreIndependent := by
  unfold Obligations.EnginesAreIndependent
  intro sys k hk
  have hget : sys.engines[k]? = some sys.engines[k] := List.getElem?_eq_getElem hk
  obtain ⟨t, ht, -⟩ := step_steps sys.engines[k]
  refine ⟨{ sys with engines := sys.engines.set k t }, _, t, ?_, hget, ht, ?_, List.length_set, fun j hj => ?_⟩
  · rw [stepEngine, hget]
    simp only [ht]
  · exact List.getElem?_set_self hk
  · exact List.getElem?_set_ne hj.symm

/-- Settles O7: the three steps are the commands of a message in one piece. -/
theorem hashPseudoInstructionDigest : Obligations.HashPseudoInstructionDigest := by
  unfold Obligations.HashPseudoInstructionDigest
  intro s op bytes emitted rest hs hbytes hlen hemitted hpending
  rw [assembleLine, hbytes] at hemitted
  cases hemitted
  have hlen' : [bytes].flatten.length ≤ 2 ^ 128 - 1 := by simpa using hlen
  have hrun := runCommands_message (s := s.withPending rest) [bytes] hs hlen'
  rw [List.flatten_singleton] at hrun
  exact ⟨_, (run_port [.init, .update bytes, .final] hpending).trans hrun, rfl, rfl, rfl⟩

end Sys2Proof.Machine
end
